-- ==== Sys2Proof/Machine/Sparse.lean ====
section
/-! DEFINITION. Maps from natural numbers as lists of pairs in rising order of key: memory cells, channels and the other
engines are held so. Of a map with a default, what is not listed reads as the default, and the default is never listed. -/

namespace Sys2Proof.Machine

/-- The value listed at `k`. -/
def sparseGet? {α : Type} : List (Nat × α) → Nat → Option α
  | [], _          => none
  | (j, v) :: t, k => if j = k then some v else sparseGet? t k

/-- The value at `k`, where what is not listed reads as `d`. -/
def sparseGet {α : Type} (d : α) (t : List (Nat × α)) (k : Nat) : α := (sparseGet? t k).getD d

/-- The map with `v` at `k`. -/
def sparsePut {α : Type} : List (Nat × α) → Nat → α → List (Nat × α)
  | [], k, v          => [(k, v)]
  | (j, w) :: t, k, v =>
    if k < j then (k, v) :: (j, w) :: t
    else if k = j then (k, v) :: t
    else (j, w) :: sparsePut t k v

/-- The map with nothing listed at `k`. -/
def sparseErase {α : Type} (t : List (Nat × α)) (k : Nat) : List (Nat × α) := t.filter fun p => p.1 ≠ k

/-- The map with `v` at `k`, where what is not listed reads as `d`: writing `d` unlists `k`. -/
def sparseSet {α : Type} [DecidableEq α] (d : α) (t : List (Nat × α)) (k : Nat) (v : α) : List (Nat × α) :=
  if v = d then sparseErase t k else sparsePut t k v

/-- Keys strictly rise. -/
abbrev SparseSorted {α : Type} (t : List (Nat × α)) : Prop := t.Pairwise fun p q => p.1 < q.1

/-- The canonical form of a map with default `d`: keys strictly rise and `d` is not listed. -/
abbrev SparseCanonical {α : Type} (d : α) (t : List (Nat × α)) : Prop := SparseSorted t ∧ ∀ p ∈ t, p.2 ≠ d

end Sys2Proof.Machine
end

