-- ==== Sys2Proof/Config.lean ====
section
/-! DEFINITION. The two parameters the spec leaves to a model (00_scope.md R10): what Add, Multiply and
RelativeBaseOffset do on overflow, and how many cells memory may have; and the schedule the spec leaves free. State carries
a value of the type Config that no step changes, so a statement about every state holds for every choice of the
parameters. -/

namespace Sys2Proof

/-- `OVERFLOW_POLICY` (41_arith.md R80, D4). -/
inductive OverflowPolicy where
  | fault
  | wrap
deriving DecidableEq, Repr

structure Config where
  overflowPolicy : OverflowPolicy
  /-- `MEM_CAP` (30_encoding.md R59, D8): `none` is unbounded. -/
  memCap : Option Nat
deriving DecidableEq, Repr

/-- The spec's defaults (00_scope.md R10). -/
def Config.default : Config := ⟨.fault, none⟩

/-- The free choice of 60_exceptions.md R109 among the engines that can step, one value for each choice: the spec fixes no
order, so this has no body and a claim holds for every schedule (log 26). -/
opaque Config.freeTurn : Nat → Nat

end Sys2Proof
end

