-- ==== Sys2Proof/Word.lean ====
section
/-! DEFINITION. The value of a cell: a signed 64-bit integer (00_scope.md R9, R11). The spec reads cells as integers and
gives them no bits and no bytes (20_memory.md R37), so the type is an integer with its range, not a bit vector. -/

namespace Sys2Proof

/-- A signed 64-bit integer, the set `I64 = [-2^63, 2^63 - 1]` of 00_scope.md R11. -/
@[ext] structure I64 where
  val : Int
  lo  : -9223372036854775808 ≤ val
  hi  : val ≤ 9223372036854775807
deriving DecidableEq, Repr

/-- `in_i64(r)` of 41_arith.md R80: the exact integer `r` is a cell value. -/
abbrev I64.InRange (r : Int) : Prop := -9223372036854775808 ≤ r ∧ r ≤ 9223372036854775807

/-- The cell value that is `r`, where there is one. -/
def I64.ofInt? (r : Int) : Option I64 :=
  if h : I64.InRange r then some ⟨r, h.1, h.2⟩ else none

/-- `wrap64(r) = ((r + 2^63) mod 2^64) - 2^63` of 41_arith.md R80. -/
def I64.wrap (r : Int) : I64 :=
  ⟨(r + 9223372036854775808) % 18446744073709551616 - 9223372036854775808, by omega, by omega⟩

def I64.zero : I64 := ⟨0, by decide, by decide⟩

def I64.one : I64 := ⟨1, by decide, by decide⟩

end Sys2Proof
end

