-- ==== Sys2Proof/Machine/State.lean ====
section
/-! DEFINITION. The state of the whole system as plain data (10_state.md R16, R17, R28; 60_exceptions.md R95, R96, R105 to
R109): the engines, the channels, the host's pending moves and the host's answers, with the reasons a step can stop and the
state right after reset. -/

namespace Sys2Proof.Machine

/-- Names the host gives to engines (60_exceptions.md R108). -/
abbrev EngineId := Nat

abbrev ChannelId := Nat

/-- The side of an engine on which a channel was found closed (60_exceptions.md R95, code 6). -/
inductive Direction where
  | input
  | output
deriving DecidableEq, Repr

/-- The faults of 60_exceptions.md R95 with the info each records. -/
inductive FaultCause where
  | invalidOpcode (word : I64)
  | illegalWriteMode (slot : Nat)
  | negativeAddress (slot : Nat) (address : Int)
  | noInputChannel
  | noOutputChannel
  | channelClosed (direction : Direction)
  | invalidMode (slot : Nat) (digit : Nat)
  | arithmeticOverflow (result : Int)
  | resourceExhausted (address : Nat)
deriving DecidableEq, Repr

/-- The fault record of 60_exceptions.md R96; its code is a function of the cause, `FaultCause.code`. -/
structure FaultRecord where
  cause : FaultCause
  ip    : Nat
  word  : I64
deriving DecidableEq, Repr

/-- The engine status (10_state.md R22). -/
inductive Status where
  | running
  | halted
  | faulted (record : FaultRecord)
deriving DecidableEq, Repr

/-- Whether the engine is inside a run, and of which kind (60_exceptions.md R105 to R107). -/
inductive RunMode where
  /-- Loaded, and not inside a run. -/
  | idle
  /-- Inside a `run` that the host waits for. -/
  | inline
  /-- Spawned, running on its own. -/
  | spawned
deriving DecidableEq, Repr

/-- Program Memory (10_state.md R25): the cells that are not 0, in rising order of address, and the extent. -/
structure Memory where
  cells  : List (Nat × I64)
  extent : Nat
deriving DecidableEq, Repr

/-- The memory of an empty image. -/
def Memory.empty : Memory := ⟨[], 0⟩

/-- One engine instance (10_state.md R16). -/
structure Engine where
  mem    : Memory
  ip     : Nat
  rb     : I64
  status : Status
  inp    : Option ChannelId
  outp   : Option ChannelId
  run    : RunMode
deriving DecidableEq, Repr

/-- A channel (10_state.md R28). -/
structure Channel where
  queue         : List I64
  senderAlive   : Bool
  receiverAlive : Bool
deriving DecidableEq, Repr

/-- A newly created channel (10_state.md R28). -/
def Channel.new : Channel := ⟨[], true, true⟩

/-- The host actions of 60_exceptions.md R105. -/
inductive HostAction where
  | load (e : EngineId) (image : List I64)
  | loadText (e : EngineId) (text : List Char)
  | attachInput (e : EngineId) (c : ChannelId)
  | attachOutput (e : EngineId) (c : ChannelId)
  | detachInput (e : EngineId)
  | detachOutput (e : EngineId)
  | newChannel
  | push (c : ChannelId) (v : I64)
  | pop (c : ChannelId)
  | dropSend (c : ChannelId)
  | dropRecv (c : ChannelId)
  | run (e : EngineId)
  | spawn (e : EngineId)
  | readMemory (e : EngineId)
  | readStatus (e : EngineId)
deriving DecidableEq, Repr

/-- What the host receives from its actions. -/
inductive Reply where
  /-- The action was carried out and returns nothing. -/
  | done
  /-- The action's precondition does not hold: it changed nothing (93_implementation_defined.md U16, U17). -/
  | refused
  /-- The text does not parse: nothing changed (70_reset_and_hazards.md R118). -/
  | parseError
  /-- The name of the channel that was created. -/
  | channel (c : ChannelId)
  /-- The value a pop took. -/
  | value (v : I64)
  /-- The cells `0` to `extent - 1` (10_state.md R31). -/
  | memory (cells : List I64)
  | status (st : Status)
  /-- The end of an inline run: `none` is ok, `some f` is err(f) (40_engine.md R77). -/
  | ran (e : EngineId) (error : Option FaultRecord)
  /-- The ends a spawn returns: the send end of a fresh inbound channel and the receive end of a fresh outbound one
  (60_exceptions.md R107). -/
  | spawned (send : Option ChannelId) (recv : Option ChannelId)
deriving DecidableEq, Repr

/-- One choice of the schedule (60_exceptions.md R109): a turn of one engine, or one host action. -/
inductive Move where
  | turn (e : EngineId)
  | host (a : HostAction)
deriving DecidableEq, Repr

/-- The system state (10_state.md R17). `eng` is the engine that has the turn and `self` its name; `others` holds the other
engines in rising order of name. A channel that `chans` does not list reads as newly created. -/
structure State where
  cfg      : Config
  self     : EngineId
  eng      : Engine
  others   : List (EngineId × Engine)
  chans    : List (ChannelId × Channel)
  /-- The channels created so far are those below `nextChan` (the model's own field, log 12). -/
  nextChan : Nat
  /-- The moves still to come, first one first (the model's own field, log 6). -/
  agenda   : List Move
  /-- How many free choices of the schedule have been taken (the model's own field, log 26). -/
  choices  : Nat
  /-- The answers the host has received, oldest first (the model's own field, log 11). -/
  replies  : List Reply
deriving DecidableEq, Repr

/-- Why the model's step stops. The spec's own faults are none of these: they are a next state whose status is Faulted. -/
inductive Fault where
  /-- Raised by `engineTurn` when the engine that has the turn is Halted or Faulted; a step of the system answers it only
  where no move is pending and no engine can step (40_engine.md R75). Safe: the model stops where the spec has no step. -/
  | ended
  /-- Raised by `engineTurn` when the engine that has the turn is loaded and the host has neither run nor spawned it; a
  step of the system answers it only where no move is pending and no engine can step (10_state.md R31, 60_exceptions.md
  R105). Safe: the model stops where the spec has no step. -/
  | notInRun
deriving DecidableEq, Repr

/-- Why an instruction has no meaning in the model. -/
inductive Refusal where
  /-- For an arm of `exec` whose instruction has no meaning yet; no arm raises it. Safe. -/
  | notModelled (mnemonic : String)
deriving DecidableEq, Repr

/-- An engine right after its first load, of the empty image (70_reset_and_hazards.md R113, R116; log 2, log 3). -/
def Engine.reset : Engine :=
  { mem := Memory.empty, ip := 0, rb := I64.zero, status := .running, inp := none, outp := none, run := .idle }

/-- The system right after reset: one engine, loaded, not inside a run, and no channel (10_state.md R33; log 2, log 3). -/
def State.reset : State :=
  { cfg := Config.default, self := 0, eng := Engine.reset, others := [], chans := [], nextChan := 0, agenda := [],
    choices := 0, replies := [] }

end Sys2Proof.Machine
end

