-- ==== Sys2Proof/Machine/Ops.lean ====
section
/-! DEFINITION. The named operations over memory, registers, engines and channels, taking a fault and the end of a run.
Meanings and host actions are written over these alone. -/

namespace Sys2Proof.Machine

/-! ### Program Memory -/

/-- The canonical form of a memory: its cells are in canonical form with default 0, and none lies at or above the extent
(the invariant of 10_state.md R25). -/
abbrev Memory.wf (m : Memory) : Prop := SparseCanonical I64.zero m.cells ∧ ∀ p ∈ m.cells, p.1 < m.extent

/-- `MemRead(a)` (20_memory.md R34). What an unlisted cell reads as is 0. -/
def memRead (m : Memory) (a : Nat) : I64 := if a < m.extent then sparseGet I64.zero m.cells a else I64.zero

/-- `MemWrite(a, v)` (20_memory.md R35). -/
def memWrite (m : Memory) (a : Nat) (v : I64) : Memory :=
  { cells := sparseSet I64.zero m.cells a v, extent := max m.extent (a + 1) }

/-- The cells of an image whose first cell has address `a`, those that are 0 left out. -/
def imageCells (a : Nat) : List I64 → List (Nat × I64)
  | []     => []
  | v :: t => if v = I64.zero then imageCells (a + 1) t else (a, v) :: imageCells (a + 1) t

/-- The memory after a load of `image` (70_reset_and_hazards.md R113). -/
def memLoad (image : List I64) : Memory := { cells := imageCells 0 image, extent := image.length }

/-- The host's readout `[cells(0), ..., cells(extent - 1)]` (10_state.md R31). -/
def memList (m : Memory) : List I64 := (List.range m.extent).map (memRead m)

/-! ### The engine that has the turn -/

/-- `ip <- ip + len`: an instruction that did not jump completes (40_engine.md R73). -/
def advance (len : Nat) (s : State) : State := { s with eng := { s.eng with ip := s.eng.ip + len } }

/-- `ip <- t`: a jump that redirected control flow completes (40_engine.md R73). -/
def jumpTo (t : Nat) (s : State) : State := { s with eng := { s.eng with ip := t } }

/-- The effect `MemWrite(a, v)` on the engine that has the turn. -/
def storeCell (a : Nat) (v : I64) (s : State) : State := { s with eng := { s.eng with mem := memWrite s.eng.mem a v } }

/-- The effect `rb <- v`. -/
def setBase (v : I64) (s : State) : State := { s with eng := { s.eng with rb := v } }

/-! ### Engines by name -/

/-- Every engine of the system. -/
def allEngines (s : State) : List Engine := s.eng :: s.others.map Prod.snd

/-- The engine named `e`. -/
def findEngine (s : State) (e : EngineId) : Option Engine := if e = s.self then some s.eng else sparseGet? s.others e

/-- The engine named `e` becomes `x`; an engine of that name need not exist before. -/
def setEngine (e : EngineId) (x : Engine) (s : State) : State :=
  if e = s.self then { s with eng := x } else { s with others := sparsePut s.others e x }

/-- The engine named `e` gets the turn; `none` where there is no engine of that name. -/
def selectEngine (e : EngineId) (s : State) : Option State :=
  if e = s.self then some s
  else
    match sparseGet? s.others e with
    | none   => none
    | some x => some { s with self := e, eng := x, others := sparsePut (sparseErase s.others e) s.self s.eng }

/-! ### Channels -/

/-- `chans(c)` (10_state.md R17, R28). -/
def getChannel (s : State) (c : ChannelId) : Channel := sparseGet Channel.new s.chans c

/-- `chans(c) <- ch`. -/
def setChannel (c : ChannelId) (ch : Channel) (s : State) : State :=
  { s with chans := sparseSet Channel.new s.chans c ch }

/-- `queue <- q` of a channel. -/
def setQueue (c : ChannelId) (q : List I64) (s : State) : State :=
  setChannel c { getChannel s c with queue := q } s

/-- The send end of a channel is dropped: `sender_alive <- false`. -/
def dropSender (c : ChannelId) (s : State) : State :=
  setChannel c { getChannel s c with senderAlive := false } s

/-- The receive end of a channel is dropped: `receiver_alive <- false`. -/
def dropReceiver (c : ChannelId) (s : State) : State :=
  setChannel c { getChannel s c with receiverAlive := false } s

/-- A channel is created under the next free name, in the state of 10_state.md R28. -/
def createChannel (s : State) : State :=
  { s with chans := sparseSet Channel.new s.chans s.nextChan Channel.new, nextChan := s.nextChan + 1 }

/-! ### The end of a run -/

/-- The ends that engine `x` drops when it ends, if it was spawned (60_exceptions.md R107, D27). -/
def releaseEnds (x : Engine) (s : State) : State :=
  match x.run with
  | .spawned =>
    let s1 := match x.inp with
      | some c => dropReceiver c s
      | none   => s
    match x.outp with
    | some c => dropSender c s1
    | none   => s1
  | .inline => s
  | .idle   => s

/-- Engine `x` after it has ended with status `st`: it is inside no run, and a spawned one holds no endpoint any more
(60_exceptions.md R107; log 15). -/
def endedEngine (st : Status) (x : Engine) : Engine :=
  match x.run with
  | .spawned => { x with status := st, run := .idle, inp := none, outp := none }
  | .inline  => { x with status := st, run := .idle }
  | .idle    => { x with status := st }

/-- The error value of a run that ended with a status (40_engine.md R77). -/
def runError : Status → Option FaultRecord
  | .running   => none
  | .halted    => none
  | .faulted f => some f

/-- What the host receives when engine `x`, named `e`, ends: the result of an inline run (40_engine.md R77). -/
def endReply (st : Status) (e : EngineId) (x : Engine) : List Reply :=
  match x.run with
  | .inline  => [.ran e (runError st)]
  | .spawned => []
  | .idle    => []

/-- The engine that has the turn ends with status `st` (40_engine.md R70, R77; 60_exceptions.md R107). -/
def endRun (st : Status) (s : State) : State :=
  { releaseEnds s.eng s with
    eng := endedEngine st s.eng, replies := s.replies ++ endReply st s.self s.eng }

/-! ### Taking a fault -/

/-- The code number of a fault (60_exceptions.md R95). -/
def FaultCause.code : FaultCause → Nat
  | .invalidOpcode _      => 1
  | .illegalWriteMode _   => 2
  | .negativeAddress _ _  => 3
  | .noInputChannel       => 4
  | .noOutputChannel      => 5
  | .channelClosed _      => 6
  | .invalidMode _ _      => 7
  | .arithmeticOverflow _ => 8
  | .resourceExhausted _  => 9

/-- `record(f, ip)` (60_exceptions.md R96): the cause, the address of the faulting instruction and its opcode word. -/
def faultRecord (f : FaultCause) (x : Engine) : FaultRecord := { cause := f, ip := x.ip, word := memRead x.mem x.ip }

/-- `raise F(info)` (60_exceptions.md R97, R98, R101): the engine ends in `Faulted(record)`. -/
def raiseFault (f : FaultCause) (s : State) : State := endRun (.faulted (faultRecord f s.eng)) s

end Sys2Proof.Machine
end

