-- ==== Sys2Proof/Machine/Flags.lean ====
section
/-! DEFINITION. The machine has no flags (10_state.md R23). What takes their place stands here: the overflow rule of exact
results (41_arith.md R80), the 0 or 1 that a comparison writes (44_compare.md R90), and the test of a jump
(43_jumps.md R88, R89). -/

namespace Sys2Proof.Machine

/-- `fit(r)` (41_arith.md R80): the exact result `r` as a cell value. -/
def fit (cfg : Config) (r : Int) : Except FaultCause I64 :=
  match I64.ofInt? r with
  | some v => .ok v
  | none =>
    match cfg.overflowPolicy with
    | .fault => .error (.arithmeticOverflow r)
    | .wrap  => .ok (I64.wrap r)

/-- The result of a comparison: exactly 1 or 0 (44_compare.md R90). -/
def truthCell (b : Bool) : I64 := if b then I64.one else I64.zero

/-- The signed comparison of LessThan (44_compare.md R90). -/
def lessThanCell (a b : I64) : I64 := truthCell (decide (a.val < b.val))

/-- The comparison of Equals (44_compare.md R90). -/
def equalsCell (a b : I64) : I64 := truthCell (decide (a.val = b.val))

/-- A jump's test is true exactly when the value is not 0 (43_jumps.md R88). -/
def testTrue (v : I64) : Bool := decide (v.val ≠ 0)

end Sys2Proof.Machine
end

