-- ==== Sys2Proof/Syntax.lean ====
section
/-! DEFINITION. The ten operations as syntax (00_scope.md R2, 30_encoding.md R60). An operand keeps its mode and its raw
cell as decoded; a mode digit with no meaning stays visible in the syntax, because it is the Parameter Resolver that
faults on it, slot by slot, and not the reading of the word (30_encoding.md R62). -/

namespace Sys2Proof

/-- What a mode digit says of a raw operand (30_encoding.md R53). -/
inductive Mode where
  | position
  | immediate
  | relative
  /-- Mode digit `3 + k`, one of 3 to 9: no meaning. -/
  | unassigned (k : Fin 7)
deriving DecidableEq, Repr

/-- One parameter slot as it stands in the instruction: its mode and the whole raw cell (30_encoding.md R52). -/
structure Operand where
  mode : Mode
  raw  : I64
deriving DecidableEq, Repr

/-- The closed set of operations (30_encoding.md R60), slots in encoding order. -/
inductive Instr where
  | add (a b out : Operand)
  | mul (a b out : Operand)
  | input (out : Operand)
  | output (a : Operand)
  | jumpIfTrue (test target : Operand)
  | jumpIfFalse (test target : Operand)
  | lessThan (a b out : Operand)
  | equals (a b out : Operand)
  | relativeBaseOffset (a : Operand)
  | halt
deriving DecidableEq, Repr

/-- Whether an instruction reads or writes through a slot (the R and W of 30_encoding.md R60). -/
inductive SlotKind where
  | read
  | write
deriving DecidableEq, Repr

/-- The parameter slots of an instruction in order, each with its kind (30_encoding.md R60). -/
def Instr.slots : Instr → List (SlotKind × Operand)
  | .add a b out          => [(.read, a), (.read, b), (.write, out)]
  | .mul a b out          => [(.read, a), (.read, b), (.write, out)]
  | .input out            => [(.write, out)]
  | .output a             => [(.read, a)]
  | .jumpIfTrue t u       => [(.read, t), (.read, u)]
  | .jumpIfFalse t u      => [(.read, t), (.read, u)]
  | .lessThan a b out     => [(.read, a), (.read, b), (.write, out)]
  | .equals a b out       => [(.read, a), (.read, b), (.write, out)]
  | .relativeBaseOffset a => [(.read, a)]
  | .halt                 => []

/-- The opcode number (30_encoding.md R60). -/
def Instr.opcode : Instr → Nat
  | .add _ _ _            => 1
  | .mul _ _ _            => 2
  | .input _              => 3
  | .output _             => 4
  | .jumpIfTrue _ _       => 5
  | .jumpIfFalse _ _      => 6
  | .lessThan _ _ _       => 7
  | .equals _ _ _         => 8
  | .relativeBaseOffset _ => 9
  | .halt                 => 99

/-- The encoded length in cells (30_encoding.md R61, from the table of R48). -/
def Instr.length : Instr → Nat
  | .add _ _ _            => 4
  | .mul _ _ _            => 4
  | .input _              => 2
  | .output _             => 2
  | .jumpIfTrue _ _       => 3
  | .jumpIfFalse _ _      => 3
  | .lessThan _ _ _       => 4
  | .equals _ _ _         => 4
  | .relativeBaseOffset _ => 2
  | .halt                 => 1

end Sys2Proof
end

