-- ==== Sys2Proof/WellFormed.lean ====
section
/-! DEFINITION. Well-formed instructions: the class "valid" of 30_encoding.md R65, in which every used slot's mode is
legal for its kind (30_encoding.md R53). -/

namespace Sys2Proof

/-- Which modes a slot of each kind may have (30_encoding.md R53). -/
def SlotKind.allows : SlotKind → Mode → Bool
  | .read,  .position     => true
  | .read,  .immediate    => true
  | .read,  .relative     => true
  | .read,  .unassigned _ => false
  | .write, .position     => true
  | .write, .immediate    => false
  | .write, .relative     => true
  | .write, .unassigned _ => false

/-- Every slot's mode is legal for its kind. -/
def Instr.wellFormed (i : Instr) : Bool := i.slots.all fun p => p.1.allows p.2.mode

end Sys2Proof
end

