-- ==== Sys2Proof/Decode.lean ====
section
/-! DEFINITION. The Instruction Decoder's reading of an opcode word and its raw operands (30_encoding.md R49 to R52, R60,
R62, R64), the encoder (R68), the two pseudo-instructions (R69), and the decoder as the host's question about the opcode
table asks for it. -/

namespace Sys2Proof

/-- `digit(w, i) = (w div 10^i) mod 10` (00_scope.md R12). -/
def digit (w i : Nat) : Nat := w / 10 ^ i % 10

/-- The meaning of a mode digit (30_encoding.md R53). -/
def modeOfDigit : Nat → Mode
  | 0     => .position
  | 1     => .immediate
  | 2     => .relative
  | d + 3 => .unassigned (Fin.ofNat 7 d)

/-- The digit a mode is written as (30_encoding.md R53). -/
def digitOfMode : Mode → Nat
  | .position     => 0
  | .immediate    => 1
  | .relative     => 2
  | .unassigned k => 3 + k.val

/-- `opcode(W)` (30_encoding.md R50). -/
def opcodeOf (w : Nat) : Nat := digit w 1 * 10 + digit w 0

/-- `mode(W, k)` (30_encoding.md R51). -/
def modeAt (w k : Nat) : Mode := modeOfDigit (digit w (2 + k))

/-- Why a word is no instruction: both are the fault InvalidOpcode (30_encoding.md R62, R65). -/
inductive DecodeError where
  /-- `W < 0`: no opcode is extracted (30_encoding.md R50, D2). -/
  | negativeWord (w : I64)
  /-- `W mod 100` is 0 or 10 to 98. -/
  | unknownOpcode (w : I64)
deriving DecidableEq, Repr

/-- The opcode word of a rejected word. -/
def decodeErrorWord : DecodeError → I64
  | .negativeWord w  => w
  | .unknownOpcode w => w

/-- Slot `k` of the instruction whose opcode word is `w` and whose raw operands are `raw 0, raw 1, raw 2`. -/
def slotOperand (w : Nat) (raw : Nat → I64) (k : Nat) : Operand := ⟨modeAt w k, raw k⟩

/-- The opcode map: the operation of an opcode with the slots it has (30_encoding.md R60). -/
def instrOfOpcode (slot : Nat → Operand) : Nat → Option Instr
  | 1  => some (.add (slot 0) (slot 1) (slot 2))
  | 2  => some (.mul (slot 0) (slot 1) (slot 2))
  | 3  => some (.input (slot 0))
  | 4  => some (.output (slot 0))
  | 5  => some (.jumpIfTrue (slot 0) (slot 1))
  | 6  => some (.jumpIfFalse (slot 0) (slot 1))
  | 7  => some (.lessThan (slot 0) (slot 1) (slot 2))
  | 8  => some (.equals (slot 0) (slot 1) (slot 2))
  | 9  => some (.relativeBaseOffset (slot 0))
  | 99 => some .halt
  | _  => none

/-- The instruction that an opcode word and the cells after it stand for (30_encoding.md R62). -/
def decode (w : I64) (raw : Nat → I64) : Except DecodeError Instr :=
  if w.val < 0 then .error (.negativeWord w)
  else
    match instrOfOpcode (slotOperand w.val.toNat raw) (opcodeOf w.val.toNat) with
    | some i => .ok i
    | none   => .error (.unknownOpcode w)

/-! ### The encoder -/

/-- The mode digits of the slots, each at its own position (30_encoding.md R49): 100 for the first slot, then 1000, 10000. -/
def encodeModes : Nat → List Mode → Nat
  | _, []          => 0
  | scale, m :: ms => scale * digitOfMode m + encodeModes (scale * 10) ms

/-- `W = opcode + 100*m0 + 1000*m1 + 10000*m2` (30_encoding.md R68). -/
def encodeWord (i : Instr) : Nat := i.opcode + encodeModes 100 (i.slots.map fun p => p.2.mode)

/-- The cells of an instruction: the opcode word, then the raw operands in slot order (30_encoding.md R48, R68). -/
def encode (i : Instr) : List I64 := I64.wrap (encodeWord i) :: i.slots.map fun p => p.2.raw

/-! ### Pseudo-instructions of the spec's notation (30_encoding.md R69) -/

/-- `jmp t` is `jt #1, t`. -/
def pseudoJmp (t : Operand) : Instr := .jumpIfTrue ⟨.immediate, .one⟩ t

/-- `mov s, d` is `add s, #0, d`. -/
def pseudoMov (s d : Operand) : Instr := .add s ⟨.immediate, .zero⟩ d

/-! ### The host's numbering of an instruction's bits

The hardware gives its instructions no bits (00_scope.md R11). For the host's question alone, cell `k` of the instruction
is read from bits `64*k + 63` to `64*k` of the numeral, as a two's-complement 64-bit number (log 18). -/

/-- Cell `k` of the instruction that the low `nbits` bits of `w` stand for. -/
def tableCell (nbits w k : Nat) : I64 := I64.wrap ((w % 2 ^ nbits) / 2 ^ (64 * k) % 2 ^ 64 : Nat)

/-- What `decode` reads from the instruction whose bits are `w`. -/
def decodeTableWord (nbits w : Nat) : Option Instr :=
  (decode (tableCell nbits w 0) fun k => tableCell nbits w (k + 1)).toOption

end Sys2Proof
end

