-- ==== Sys2Proof/Machine/Operands.lean ====
section
/-! DEFINITION. The Parameter Resolver: every operand form of 30_encoding.md R53 to R59, and the slots of an instruction
resolved in ascending order, the first fault met being the one reported (30_encoding.md R62, 60_exceptions.md R99). -/

namespace Sys2Proof.Machine

/-- A resolved read parameter with its tag (30_encoding.md R57, R58). -/
inductive ReadParam where
  | position (address : Nat) (value : I64)
  | immediate (value : I64)
  | relative (offset : I64) (address : Nat) (value : I64)
deriving DecidableEq, Repr

/-- `val(p)`. -/
def ReadParam.val : ReadParam → I64
  | .position _ v   => v
  | .immediate v    => v
  | .relative _ _ v => v

/-- A resolved write parameter with its tag (30_encoding.md R57, R59). -/
inductive WriteParam where
  | position (address : Nat)
  | relative (offset : I64) (address : Nat)
deriving DecidableEq, Repr

/-- `addr(p)`. -/
def WriteParam.addr : WriteParam → Nat
  | .position a   => a
  | .relative _ a => a

/-- The address check of 30_encoding.md R54 and R56: `a` as a cell index, or NegativeAddress. -/
def checkAddress (slot : Nat) (a : Int) : Except FaultCause Nat :=
  if a < 0 then .error (.negativeAddress slot a) else .ok a.toNat

/-- The `MEM_CAP` check of a write address (30_encoding.md R59). -/
def checkCap (cfg : Config) (a : Nat) : Except FaultCause Nat :=
  match cfg.memCap with
  | none   => .ok a
  | some c => if c ≤ a then .error (.resourceExhausted a) else .ok a

/-- `resolve_read(m, raw)` (30_encoding.md R58) for the engine `x`. -/
def resolveRead (x : Engine) (slot : Nat) (o : Operand) : Except FaultCause ReadParam :=
  match o.mode with
  | .position =>
    match checkAddress slot o.raw.val with
    | .error f => .error f
    | .ok a    => .ok (.position a (memRead x.mem a))
  | .immediate => .ok (.immediate o.raw)
  | .relative =>
    match checkAddress slot (x.rb.val + o.raw.val) with
    | .error f => .error f
    | .ok a    => .ok (.relative o.raw a (memRead x.mem a))
  | .unassigned k => .error (.invalidMode slot (digitOfMode (.unassigned k)))

/-- `resolve_write(m, raw)` (30_encoding.md R59) for the engine `x`. -/
def resolveWrite (cfg : Config) (x : Engine) (slot : Nat) (o : Operand) : Except FaultCause WriteParam :=
  match o.mode with
  | .position =>
    match checkAddress slot o.raw.val with
    | .error f => .error f
    | .ok a =>
      match checkCap cfg a with
      | .error f => .error f
      | .ok b    => .ok (.position b)
  | .immediate => .error (.illegalWriteMode slot)
  | .relative =>
    match checkAddress slot (x.rb.val + o.raw.val) with
    | .error f => .error f
    | .ok a =>
      match checkCap cfg a with
      | .error f => .error f
      | .ok b    => .ok (.relative o.raw b)
  | .unassigned k => .error (.invalidMode slot (digitOfMode (.unassigned k)))

/-- Slots 0 and 1, both read (format F2). -/
def resolveTwo (x : Engine) (a b : Operand) : Except FaultCause (ReadParam × ReadParam) :=
  match resolveRead x 0 a with
  | .error f => .error f
  | .ok p =>
    match resolveRead x 1 b with
    | .error f => .error f
    | .ok q    => .ok (p, q)

/-- Slots 0 and 1 read and slot 2 written (format F3). -/
def resolveThree (cfg : Config) (x : Engine) (a b out : Operand) :
    Except FaultCause (ReadParam × ReadParam × WriteParam) :=
  match resolveTwo x a b with
  | .error f    => .error f
  | .ok (p, q) =>
    match resolveWrite cfg x 2 out with
    | .error f => .error f
    | .ok w    => .ok (p, q, w)

end Sys2Proof.Machine
end

