-- ==== Sys2Proof/Machine/Arith.lean ====
section
/-! DEFINITION. Add and Multiply (41_arith.md), and the shape they share with the comparisons: read slots 0 and 1, write
slot 2. -/

namespace Sys2Proof.Machine

/-- An instruction of format F3 that writes `compute a b`: resolve the slots, compute, write, advance by 4
(40_engine.md R72, 41_arith.md R81). -/
def computeAndStore (compute : I64 → I64 → Except FaultCause I64) (a b out : Operand) (s : State) :
    Host.Outcome State Fault Refusal :=
  match resolveThree s.cfg s.eng a b out with
  | .error f => .next (raiseFault f s)
  | .ok (p, q, w) =>
    match compute p.val q.val with
    | .error f => .next (raiseFault f s)
    | .ok r    => .next (advance 4 (storeCell w.addr r s))

/-- Add: `out := a + b` (41_arith.md R81). -/
def execAdd (a b out : Operand) (s : State) : Host.Outcome State Fault Refusal :=
  computeAndStore (fun x y => fit s.cfg (x.val + y.val)) a b out s

/-- Multiply: `out := a * b` (41_arith.md R82). -/
def execMul (a b out : Operand) (s : State) : Host.Outcome State Fault Refusal :=
  computeAndStore (fun x y => fit s.cfg (x.val * y.val)) a b out s

end Sys2Proof.Machine
end

