-- ==== Sys2Proof/Machine/Compare.lean ====
section
/-! DEFINITION. LessThan and Equals (44_compare.md). -/

namespace Sys2Proof.Machine

/-- LessThan: `out := 1 if a < b else 0` (44_compare.md R91). -/
def execLessThan (a b out : Operand) (s : State) : Host.Outcome State Fault Refusal :=
  computeAndStore (fun x y => .ok (lessThanCell x y)) a b out s

/-- Equals: `out := 1 if a = b else 0` (44_compare.md R92). -/
def execEquals (a b out : Operand) (s : State) : Host.Outcome State Fault Refusal :=
  computeAndStore (fun x y => .ok (equalsCell x y)) a b out s

end Sys2Proof.Machine
end

