-- ==== Sys2Proof/Machine/HaltOp.lean ====
section
/-! DEFINITION. Halt (46_halt.md). -/

namespace Sys2Proof.Machine

/-- Halt: the engine ends in `Halted`, with `ip` left at the Halt word (46_halt.md R94, 40_engine.md R73). -/
def execHalt (s : State) : Host.Outcome State Fault Refusal := .next (endRun .halted s)

end Sys2Proof.Machine
end

