-- ==== Sys2Proof/Machine/InOut.lean ====
section
/-! DEFINITION. Input and Output (42_io.md). -/

namespace Sys2Proof.Machine

/-- Input: `out := next value received` (42_io.md R83, R85). Where the queue is empty and the sender alive the instruction
holds: the state stays as it is (40_engine.md R74; log 8). -/
def execInput (out : Operand) (s : State) : Host.Outcome State Fault Refusal :=
  match resolveWrite s.cfg s.eng 0 out with
  | .error f => .next (raiseFault f s)
  | .ok w =>
    match s.eng.inp with
    | none => .next (raiseFault .noInputChannel s)
    | some c =>
      match (getChannel s c).queue with
      | v :: rest => .next (advance 2 (storeCell w.addr v (setQueue c rest s)))
      | [] =>
        if (getChannel s c).senderAlive then .next s
        else .next (raiseFault (.channelClosed .input) s)

/-- Output: send the value of `a` (42_io.md R84, R86). -/
def execOutput (a : Operand) (s : State) : Host.Outcome State Fault Refusal :=
  match resolveRead s.eng 0 a with
  | .error f => .next (raiseFault f s)
  | .ok p =>
    match s.eng.outp with
    | none => .next (raiseFault .noOutputChannel s)
    | some c =>
      if (getChannel s c).receiverAlive then
        .next (advance 2 (setQueue c ((getChannel s c).queue ++ [p.val]) s))
      else .next (raiseFault (.channelClosed .output) s)

end Sys2Proof.Machine
end

