-- ==== Sys2Proof/Machine/Jumps.lean ====
section
/-! DEFINITION. JumpIfTrue and JumpIfFalse (43_jumps.md). -/

namespace Sys2Proof.Machine

/-- A jump of format F2 that is taken when `taken test` holds: a taken jump checks its target and goes there, and one not
taken advances by 3 without looking at the target's value (43_jumps.md R88, R89; 40_engine.md R73). The target is slot 1
(log 17). -/
def jumpWhen (taken : I64 → Bool) (test target : Operand) (s : State) : Host.Outcome State Fault Refusal :=
  match resolveTwo s.eng test target with
  | .error f => .next (raiseFault f s)
  | .ok (p, q) =>
    if taken p.val then
      match checkAddress 1 q.val.val with
      | .error f => .next (raiseFault f s)
      | .ok t    => .next (jumpTo t s)
    else .next (advance 3 s)

/-- JumpIfTrue: `if test ≠ 0, instruction pointer := target` (43_jumps.md R88). -/
def execJumpIfTrue (test target : Operand) (s : State) : Host.Outcome State Fault Refusal :=
  jumpWhen testTrue test target s

/-- JumpIfFalse: `if test = 0, instruction pointer := target` (43_jumps.md R89). -/
def execJumpIfFalse (test target : Operand) (s : State) : Host.Outcome State Fault Refusal :=
  jumpWhen (fun v => !testTrue v) test target s

end Sys2Proof.Machine
end

