-- ==== Sys2Proof/Machine/RelBase.lean ====
section
/-! DEFINITION. RelativeBaseOffset (45_relbase.md). -/

namespace Sys2Proof.Machine

/-- RelativeBaseOffset: `relative_base += a` (45_relbase.md R93). The operand is resolved with the old `rb`. -/
def execRelativeBaseOffset (a : Operand) (s : State) : Host.Outcome State Fault Refusal :=
  match resolveRead s.eng 0 a with
  | .error f => .next (raiseFault f s)
  | .ok p =>
    match fit s.cfg (s.eng.rb.val + p.val.val) with
    | .error f => .next (raiseFault f s)
    | .ok r    => .next (advance 2 (setBase r s))

end Sys2Proof.Machine
end

