-- ==== Sys2Proof/Machine/Dispatch.lean ====
section
/-! DEFINITION. One arm per operation (40_engine.md R79). -/

namespace Sys2Proof.Machine

/-- `execute` of 40_engine.md R72 and R79, for the engine that has the turn. -/
def exec (i : Instr) (s : State) : Host.Outcome State Fault Refusal :=
  match i with
  | .add a b out => Sys2Proof.Machine.execAdd a b out s
  | .mul a b out => Sys2Proof.Machine.execMul a b out s
  | .input out => Sys2Proof.Machine.execInput out s
  | .output a => Sys2Proof.Machine.execOutput a s
  | .jumpIfTrue test target => Sys2Proof.Machine.execJumpIfTrue test target s
  | .jumpIfFalse test target => Sys2Proof.Machine.execJumpIfFalse test target s
  | .lessThan a b out => Sys2Proof.Machine.execLessThan a b out s
  | .equals a b out => Sys2Proof.Machine.execEquals a b out s
  | .relativeBaseOffset a => Sys2Proof.Machine.execRelativeBaseOffset a s
  | .halt => Sys2Proof.Machine.execHalt s

end Sys2Proof.Machine
end

