-- ==== Sys2Proof/Machine/Text.lean ====
section
/-! DEFINITION. The program text (70_reset_and_hazards.md R117, R118). -/

namespace Sys2Proof.Machine

/-- `ws` of the grammar. -/
def isSpace (c : Char) : Bool := c == ' ' || c == '\t' || c == '\r' || c == '\n'

/-- `digit` of the grammar. -/
def isDigit (c : Char) : Bool := '0'.toNat ≤ c.toNat && c.toNat ≤ '9'.toNat

/-- The number that decimal digits stand for; leading zeros are allowed. -/
def digitsValue (ds : List Char) : Nat := ds.foldl (fun n c => 10 * n + (c.toNat - '0'.toNat)) 0

/-- The text cut at its commas. -/
def splitCommas : List Char → List (List Char)
  | []     => [[]]
  | c :: t =>
    match splitCommas t with
    | []     => [[c]]
    | p :: r => if c == ',' then [] :: p :: r else (c :: p) :: r

/-- `sign?` of the grammar: whether the number is negative, and what follows the sign. -/
def parseSign : List Char → Bool × List Char
  | '+' :: t => (false, t)
  | '-' :: t => (true, t)
  | t        => (false, t)

/-- `ws* int ws*`, whole and in range. -/
def parsePiece (piece : List Char) : Option I64 :=
  let signed := parseSign (piece.dropWhile isSpace)
  let ds := signed.2.takeWhile isDigit
  let after := signed.2.dropWhile isDigit
  if ds.isEmpty then none
  else if after.all isSpace then
    I64.ofInt? (if signed.1 then -(digitsValue ds : Int) else (digitsValue ds : Int))
  else none

/-- Every piece parses, or the whole fails. -/
def parsePieces : List (List Char) → Option (List I64)
  | []     => some []
  | p :: r =>
    match parsePiece p, parsePieces r with
    | some v, some vs => some (v :: vs)
    | _, _            => none

/-- `text` of the grammar: the image a program text stands for, or `none` for a parse error. -/
def parseText (text : List Char) : Option (List I64) := parsePieces (splitCommas text)

end Sys2Proof.Machine
end

