-- ==== Sys2Proof/Machine/HostMoves.lean ====
section
/-! DEFINITION. The host actions of 60_exceptions.md R105 to R107, each one atomic move. An action whose precondition does
not hold is refused and changes nothing but the host's answers (93_implementation_defined.md U15 to U17). -/

namespace Sys2Proof.Machine

/-- The host receives an answer. -/
def reply (r : Reply) (s : State) : State := { s with replies := s.replies ++ [r] }

/-- Some engine is inside an inline run, so the host waits and makes no move (60_exceptions.md R105, R106). -/
def hostWaits (s : State) : Bool := (allEngines s).any fun x => decide (x.run = .inline)

/-- The host holds the send end of `c`: the channel was created, its send end was not dropped, and no engine holds it
(log 12). -/
def hostHoldsSend (s : State) (c : ChannelId) : Bool :=
  decide (c < s.nextChan) && (getChannel s c).senderAlive && (allEngines s).all fun x => decide (x.outp ≠ some c)

/-- The host holds the receive end of `c` (log 12). -/
def hostHoldsRecv (s : State) (c : ChannelId) : Bool :=
  decide (c < s.nextChan) && (getChannel s c).receiverAlive && (allEngines s).all fun x => decide (x.inp ≠ some c)

/-- `load(P)` on an engine that exists (70_reset_and_hazards.md R113). -/
def loadedEngine (image : List I64) (x : Engine) : Engine :=
  { x with mem := memLoad image, ip := 0, rb := I64.zero, status := .running }

/-- `f` on the engine named `e` if it exists and is not inside a run; refused otherwise. -/
def onIdleEngine (e : EngineId) (f : Engine → State) (s : State) : State :=
  match findEngine s e with
  | none   => reply .refused s
  | some x =>
    match x.run with
    | .idle    => f x
    | .inline  => reply .refused s
    | .spawned => reply .refused s

/-- load(image): the first load of a name creates the engine (70_reset_and_hazards.md R113, R116). -/
def hostLoad (e : EngineId) (image : List I64) (s : State) : State :=
  match findEngine s e with
  | none   => reply .done (setEngine e (loadedEngine image Engine.reset) s)
  | some _ => onIdleEngine e (fun x => reply .done (setEngine e (loadedEngine image x) s)) s

/-- Parse, then load (70_reset_and_hazards.md R117, R118). -/
def parseThenLoad (e : EngineId) (text : List Char) (s : State) : State :=
  match parseText text with
  | none       => reply .parseError s
  | some image => hostLoad e image s

/-- load(text): its precondition is that of load(image), and comes before the text is looked at. -/
def hostLoadText (e : EngineId) (text : List Char) (s : State) : State :=
  match findEngine s e with
  | none   => parseThenLoad e text s
  | some _ => onIdleEngine e (fun _ => parseThenLoad e text s) s

/-- attach_input(c): the endpoint the host holds replaces the one the engine held, which goes back to the host. -/
def hostAttachInput (e : EngineId) (c : ChannelId) (s : State) : State :=
  if hostHoldsRecv s c then onIdleEngine e (fun x => reply .done (setEngine e { x with inp := some c } s)) s
  else reply .refused s

/-- attach_output(c). -/
def hostAttachOutput (e : EngineId) (c : ChannelId) (s : State) : State :=
  if hostHoldsSend s c then onIdleEngine e (fun x => reply .done (setEngine e { x with outp := some c } s)) s
  else reply .refused s

/-- detach_input: the endpoint goes to the host. -/
def hostDetachInput (e : EngineId) (s : State) : State :=
  onIdleEngine e (fun x => reply .done (setEngine e { x with inp := none } s)) s

/-- detach_output. -/
def hostDetachOutput (e : EngineId) (s : State) : State :=
  onIdleEngine e (fun x => reply .done (setEngine e { x with outp := none } s)) s

/-- A channel is created and the host holds both its ends (log 13). -/
def hostNewChannel (s : State) : State := reply (.channel s.nextChan) (createChannel s)

/-- push(c, v). -/
def hostPush (c : ChannelId) (v : I64) (s : State) : State :=
  if hostHoldsSend s c && (getChannel s c).receiverAlive then
    reply .done (setQueue c ((getChannel s c).queue ++ [v]) s)
  else reply .refused s

/-- pop(c). -/
def hostPop (c : ChannelId) (s : State) : State :=
  if hostHoldsRecv s c then
    match (getChannel s c).queue with
    | v :: rest => reply (.value v) (setQueue c rest s)
    | []        => reply .refused s
  else reply .refused s

/-- drop_send(c). -/
def hostDropSend (c : ChannelId) (s : State) : State :=
  if hostHoldsSend s c then reply .done (dropSender c s) else reply .refused s

/-- drop_recv(c). -/
def hostDropRecv (c : ChannelId) (s : State) : State :=
  if hostHoldsRecv s c then reply .done (dropReceiver c s) else reply .refused s

/-- run: the engine gets the turn, inside an inline run; one that has ended returns its result at once
(40_engine.md R77, 60_exceptions.md R105). -/
def hostRun (e : EngineId) (s : State) : State :=
  onIdleEngine e
    (fun x =>
      match x.status with
      | .running =>
        match selectEngine e s with
        | some t => { t with eng := { t.eng with run := .inline } }
        | none   => reply .refused s
      | .halted    => reply (.ran e (runError x.status)) s
      | .faulted _ => reply (.ran e (runError x.status)) s) s

/-- A side of a spawned engine with no endpoint gets a fresh channel: the engine's end, and the state with the channel
created (60_exceptions.md R107, D30). -/
def freshEnd (held : Option ChannelId) (s : State) : Option ChannelId × State :=
  match held with
  | some c => (some c, s)
  | none   => (some s.nextChan, createChannel s)

/-- The end that `spawn` returns to the host for a side: that of the fresh channel, where one was created. -/
def returnedEnd (held fresh : Option ChannelId) : Option ChannelId :=
  match held with
  | some _ => none
  | none   => fresh

/-- The engine named `e`, spawned, begins to run on its own; one that had ended already ends its new run at once
(log 16). -/
def startSpawned (e : EngineId) (x : Engine) (s : State) : State :=
  match x.status with
  | .running   => setEngine e x s
  | .halted    => setEngine e (endedEngine x.status x) (releaseEnds x s)
  | .faulted _ => setEngine e (endedEngine x.status x) (releaseEnds x s)

/-- spawn (60_exceptions.md R107). -/
def hostSpawn (e : EngineId) (s : State) : State :=
  onIdleEngine e
    (fun x =>
      let i := freshEnd x.inp s
      let o := freshEnd x.outp i.2
      reply (.spawned (returnedEnd x.inp i.1) (returnedEnd x.outp o.1))
        (startSpawned e { x with inp := i.1, outp := o.1, run := .spawned } o.2)) s

/-- read_memory (10_state.md R31). -/
def hostReadMemory (e : EngineId) (s : State) : State := onIdleEngine e (fun x => reply (.memory (memList x.mem)) s) s

/-- The status with its fault record, read by the host (10_state.md R31). -/
def hostReadStatus (e : EngineId) (s : State) : State := onIdleEngine e (fun x => reply (.status x.status) s) s

/-- One host action (60_exceptions.md R105). -/
def hostAct (a : HostAction) (s : State) : State :=
  if hostWaits s then reply .refused s
  else
    match a with
    | .load e image     => hostLoad e image s
    | .loadText e text  => hostLoadText e text s
    | .attachInput e c  => hostAttachInput e c s
    | .attachOutput e c => hostAttachOutput e c s
    | .detachInput e    => hostDetachInput e s
    | .detachOutput e   => hostDetachOutput e s
    | .newChannel       => hostNewChannel s
    | .push c v         => hostPush c v s
    | .pop c            => hostPop c s
    | .dropSend c       => hostDropSend c s
    | .dropRecv c       => hostDropRecv c s
    | .run e            => hostRun e s
    | .spawn e          => hostSpawn e s
    | .readMemory e     => hostReadMemory e s
    | .readStatus e     => hostReadStatus e s

end Sys2Proof.Machine
end

