-- ==== Sys2Proof/Machine/Turn.lean ====
section
/-! DEFINITION. Instruction fetch, one step of one engine (40_engine.md R71, R72), one move of the system
(60_exceptions.md R109), and the placing of an instruction where the next step fetches it. -/

namespace Sys2Proof.Machine

/-- The fetch and decode of 30_encoding.md R62: the opcode word at `ip`, the raw operands after it. -/
def fetch (x : Engine) : Except DecodeError Instr :=
  decode (memRead x.mem x.ip) fun k => memRead x.mem (x.ip + 1 + k)

/-- The step of the engine that has the turn (40_engine.md R72). -/
def engineTurn (s : State) : Host.Outcome State Fault Refusal :=
  match s.eng.status with
  | .halted    => .fault .ended
  | .faulted _ => .fault .ended
  | .running =>
    if s.eng.run = .idle then .fault .notInRun
    else
      match fetch s.eng with
      | .error e => .next (raiseFault (.invalidOpcode (decodeErrorWord e)) s)
      | .ok i    => exec i s

/-- The engine can take a step, or holds at an Input: it is Running and inside a run (40_engine.md R72, R76). -/
def runnable (x : Engine) : Bool := decide (x.status = .running) && decide (x.run ≠ .idle)

/-- The names of the engines that can take a step. -/
def runnableNames (s : State) : List EngineId :=
  (((s.self, s.eng) :: s.others).filter fun p => runnable p.2).map Prod.fst

/-- The name among `names` that choice `n` of the schedule falls on. -/
def chosenName (n : Nat) (names : List EngineId) (first : EngineId) : EngineId :=
  names.getD (Config.freeTurn n % names.length) first

/-- The step of the engine named `e`. -/
def turnOf (e : EngineId) (s : State) : Host.Outcome State Fault Refusal :=
  match selectEngine e s with
  | none   => .next s
  | some t => engineTurn t

/-- A step with no move pending: every engine inside a run steps on, indefinitely until it ends (40_engine.md R76), and
where several can step the choice among them is free (60_exceptions.md R109; log 26). -/
def autonomousStep (s : State) : Host.Outcome State Fault Refusal :=
  match runnableNames s with
  | []          => engineTurn s
  | [e]         => turnOf e s
  | e :: f :: r => turnOf (chosenName s.choices (e :: f :: r) e) { s with choices := s.choices + 1 }

/-- A turn of the engine named `e`; where that engine has no step, or there is none of that name, nothing changes
(log 7). -/
def scheduledTurn (e : EngineId) (s : State) : Host.Outcome State Fault Refusal :=
  match selectEngine e s with
  | none   => .next s
  | some t =>
    match engineTurn t with
    | .next u    => .next u
    | .fault _   => .next s
    | .refused r => .refused r

/-- One step of the system (60_exceptions.md R109): the first move of the agenda; where none is pending, an engine inside a
run goes on (log 6). -/
def systemStep (s : State) : Host.Outcome State Fault Refusal :=
  match s.agenda with
  | []             => autonomousStep s
  | .turn e :: r   => scheduledTurn e { s with agenda := r }
  | .host a :: r   => .next (hostAct a { s with agenda := r })

/-- Cells written one after another from address `a`. -/
def writeCells (a : Nat) : List I64 → Memory → Memory
  | [], m     => m
  | v :: t, m => writeCells (a + 1) t (memWrite m a v)

/-- An engine outside any run enters an inline one. -/
def enterRun : RunMode → RunMode
  | .idle    => .inline
  | .inline  => .inline
  | .spawned => .spawned

/-- The next move is a turn of the engine that has the turn: with no other engine inside a run nothing need be pending, and
else that turn is (log 18). -/
def turnPending (s : State) : List Move :=
  if s.others.any fun p => runnable p.2 then [.turn s.self] else []

/-- The instruction whose bits are `w` stands at `ip`, and the engine that has the turn executes it at the next step: it is
Running, inside a run, and the next to move (log 18). -/
def placeWord (s : State) (nbits w : Nat) : State :=
  { s with
    agenda := turnPending s
    eng := { s.eng with
      mem := writeCells s.eng.ip ((List.range 4).map (tableCell nbits w)) s.eng.mem
      status := .running
      run := enterRun s.eng.run } }

end Sys2Proof.Machine
end

