-- ==== Sys2Proof/Machine/Step.lean ====
section
/-! DEFINITION. The step of the machine; what it does stands in Turn.lean. -/

namespace Sys2Proof.Machine

/-- One step of the system (60_exceptions.md R109). -/
def step (s : State) : Host.Outcome State Fault Refusal := systemStep s

/-- The state in which the very next step runs the instruction whose bits are `w` (log 18). -/
def State.withFetchWord (s : State) (nbits w : Nat) : State := placeWord s nbits w

end Sys2Proof.Machine
end

