-- ==== Sys2Proof/Safety.lean ====
section
/-! DEFINITION. The terms claims use: what an operand reads as or writes to by the mode table, which fault a slot reports,
what a precise fault leaves alone, and the invariants of the system state. They are written from the spec's tables and not
from the resolver's code, so that a claim compares the two. -/

namespace Sys2Proof.Machine

/-! ### Operands by the mode table (30_encoding.md R53 to R56) -/

/-- `MEM_CAP`, where it is set, admits a write at `a` (30_encoding.md R59). -/
def UnderCap (cfg : Config) (a : Nat) : Prop := ∀ c, cfg.memCap = some c → a < c

/-- The address an operand's mode and raw cell form, as an exact integer (30_encoding.md R54, R56). -/
def formedAddress (x : Engine) (o : Operand) : Option Int :=
  match o.mode with
  | .position     => some o.raw.val
  | .immediate    => none
  | .relative     => some (x.rb.val + o.raw.val)
  | .unassigned _ => none

/-- Engine `x` reads the value `v` through operand `o`. -/
def ReadsAs (x : Engine) (o : Operand) (v : I64) : Prop :=
  (o.mode = .immediate ∧ v = o.raw) ∨ ∃ a : Nat, formedAddress x o = some (a : Int) ∧ v = memRead x.mem a

/-- Engine `x` writes cell `a` through operand `o`. -/
def WritesTo (cfg : Config) (x : Engine) (o : Operand) (a : Nat) : Prop :=
  formedAddress x o = some (a : Int) ∧ UnderCap cfg a

/-- Slot `k`, of a given kind, reports fault `f`: the mode first, then write legality, then the address, then the capacity
(60_exceptions.md R99). -/
def SlotFault (cfg : Config) (x : Engine) (k : Nat) : SlotKind × Operand → FaultCause → Prop
  | (kind, o), f =>
    (∃ d, o.mode = .unassigned d ∧ f = .invalidMode k (3 + d.val)) ∨
    (kind = .write ∧ o.mode = .immediate ∧ f = .illegalWriteMode k) ∨
    (∃ a, formedAddress x o = some a ∧ a < 0 ∧ f = .negativeAddress k a) ∨
    (kind = .write ∧ ∃ a : Nat, ∃ c, formedAddress x o = some (a : Int) ∧ cfg.memCap = some c ∧ c ≤ a ∧
      f = .resourceExhausted a)

/-- A slot of a given kind resolves. -/
def SlotResolves (cfg : Config) (x : Engine) : SlotKind × Operand → Prop
  | (.read, o)  => ∃ v, ReadsAs x o v
  | (.write, o) => ∃ a, WritesTo cfg x o a

/-- The first slot, counted from `k`, that does not resolve reports fault `f` (60_exceptions.md R99). -/
def FirstSlotFault (cfg : Config) (x : Engine) : Nat → List (SlotKind × Operand) → FaultCause → Prop
  | _, [], _     => False
  | k, p :: r, f => SlotFault cfg x k p f ∨ (SlotResolves cfg x p ∧ FirstSlotFault cfg x (k + 1) r f)

/-! ### What steps leave alone -/

/-- The engine's memory with its extent, its `ip` and its `rb` are the same (60_exceptions.md R98). -/
def SameRegistersAndMemory (x y : Engine) : Prop := y.mem = x.mem ∧ y.ip = x.ip ∧ y.rb = x.rb

/-- The engine `y` and the channels of `t` are what a spawned engine `x` leaves when it ends from `s`: it holds no endpoint,
the receive end of its inbound and the send end of its outbound channel are dead, and every other end is as it was
(60_exceptions.md R107; log 15). -/
def DropsItsEnds (s t : State) (x y : Engine) : Prop :=
  y.inp = none ∧ y.outp = none ∧
    ∀ c, (getChannel t c).receiverAlive = (if x.inp = some c then false else (getChannel s c).receiverAlive) ∧
      (getChannel t c).senderAlive = (if x.outp = some c then false else (getChannel s c).senderAlive)

/-- The engine that has the turn ends with status `st`, and nothing else happens but that an inline run answers `err` and a
spawned engine drops its ends (40_engine.md R77, 60_exceptions.md R98, R107). -/
def EndsRun (s t : State) (st : Status) (err : Option FaultRecord) : Prop :=
  t.eng.status = st ∧ SameRegistersAndMemory s.eng t.eng ∧ t.eng.run = .idle ∧
    (∀ c, (getChannel t c).queue = (getChannel s c).queue) ∧
    t.self = s.self ∧ t.others = s.others ∧ t.cfg = s.cfg ∧ t.nextChan = s.nextChan ∧ t.agenda = s.agenda ∧
    t.choices = s.choices ∧ t.replies = s.replies ++ (if s.eng.run = .inline then [.ran s.self err] else []) ∧
    (s.eng.run ≠ .spawned → t.chans = s.chans ∧ t.eng.inp = s.eng.inp ∧ t.eng.outp = s.eng.outp) ∧
    (s.eng.run = .spawned → DropsItsEnds s t s.eng t.eng)

/-- The record of fault `f` of engine `x` (60_exceptions.md R96). -/
def recordOf (f : FaultCause) (x : Engine) : FaultRecord := { cause := f, ip := x.ip, word := memRead x.mem x.ip }

/-- The step from `s` to `t` takes fault `f`: the record is stored, and nothing else happens but what the end of a run
brings (60_exceptions.md R96 to R98). -/
def TakesFault (s t : State) (f : FaultCause) : Prop :=
  EndsRun s t (.faulted (recordOf f s.eng)) (some (recordOf f s.eng))

/-- Everything of the system but the engine that has the turn is the same. -/
def SameOutside (s t : State) : Prop :=
  t.cfg = s.cfg ∧ t.self = s.self ∧ t.others = s.others ∧ t.chans = s.chans ∧ t.nextChan = s.nextChan ∧
    t.agenda = s.agenda ∧ t.choices = s.choices ∧ t.replies = s.replies

/-- Everything of the engine but its memory and `ip` is the same. -/
def SameButMemoryAndIp (x y : Engine) : Prop :=
  y.rb = x.rb ∧ y.status = x.status ∧ y.inp = x.inp ∧ y.outp = x.outp ∧ y.run = x.run

/-- Everything of the system but the engine that has the turn and the queue of channel `c`, which becomes `q`, is the
same. -/
def SameOutsideButQueue (s t : State) (c : ChannelId) (q : List I64) : Prop :=
  t.cfg = s.cfg ∧ t.self = s.self ∧ t.others = s.others ∧ t.nextChan = s.nextChan ∧ t.agenda = s.agenda ∧
    t.choices = s.choices ∧ t.replies = s.replies ∧ getChannel t c = { getChannel s c with queue := q } ∧
    ∀ d, d ≠ c → getChannel t d = getChannel s d

/-- Of the system only channel `c` changes, to `ch`, and the host receives the answer `rep` (60_exceptions.md R105). -/
def OnlyChannelChanges (s t : State) (c : ChannelId) (ch : Channel) (rep : Reply) : Prop :=
  t.cfg = s.cfg ∧ t.self = s.self ∧ t.eng = s.eng ∧ t.others = s.others ∧ t.nextChan = s.nextChan ∧
    t.choices = s.choices ∧ t.replies = s.replies ++ [rep] ∧ getChannel t c = ch ∧ ∀ d, d ≠ c → getChannel t d = getChannel s d

/-- The engine a host action needs to be outside any run (60_exceptions.md R105; for run and spawn log 14). -/
def HostAction.needsIdle : HostAction → Option EngineId
  | .load e _         => some e
  | .loadText e _     => some e
  | .attachInput e _  => some e
  | .attachOutput e _ => some e
  | .detachInput e    => some e
  | .detachOutput e   => some e
  | .newChannel       => none
  | .push _ _         => none
  | .pop _            => none
  | .dropSend _       => none
  | .dropRecv _       => none
  | .run e            => some e
  | .spawn e          => some e
  | .readMemory e     => some e
  | .readStatus e     => some e

/-- The channel preconditions of the host actions do not hold (60_exceptions.md R105). -/
def HostAction.LacksChannel (s : State) : HostAction → Prop
  | .push c _         => hostHoldsSend s c = false ∨ (getChannel s c).receiverAlive = false
  | .pop c            => hostHoldsRecv s c = false ∨ (getChannel s c).queue = []
  | .dropSend c       => hostHoldsSend s c = false
  | .dropRecv c       => hostHoldsRecv s c = false
  | .attachInput _ c  => hostHoldsRecv s c = false
  | .attachOutput _ c => hostHoldsSend s c = false
  | .load _ _         => False
  | .loadText _ _     => False
  | .detachInput _    => False
  | .detachOutput _   => False
  | .newChannel       => False
  | .run _            => False
  | .spawn _          => False
  | .readMemory _     => False
  | .readStatus _     => False

/-- Memory `n` is memory `m` with `v` in cell `a`, grown so far as that takes, and every other cell reading as before
(20_memory.md R35). -/
def StoredAt (m n : Memory) (a : Nat) (v : I64) : Prop :=
  memRead n a = v ∧ n.extent = max m.extent (a + 1) ∧ ∀ b, b ≠ a → memRead n b = memRead m b

/-- The engine is Running and inside a run, so it steps on (40_engine.md R72, R76). -/
abbrev CanStep (x : Engine) : Prop := x.status = .running ∧ x.run ≠ .idle

/-- The cell at `ip` is no instruction: it is negative, or its two low digits are no opcode of the table
(30_encoding.md R60, R62, R65). -/
def FindsNoInstruction (x : Engine) : Prop :=
  (memRead x.mem x.ip).val < 0 ∨ (memRead x.mem x.ip).val % 100 ∉ ([1, 2, 3, 4, 5, 6, 7, 8, 9, 99] : List Int)

/-- The next step of the system is that of the engine named `e`, with the moves `r` then pending: the first pending move is
its turn, or none is pending and no other engine can step (60_exceptions.md R109). -/
def NextIs (s : State) (e : EngineId) (r : List Move) : Prop :=
  s.agenda = .turn e :: r ∨ (s.agenda = [] ∧ r = [] ∧ ∀ f y, findEngine s f = some y → CanStep y → f = e)

/-- `u` is the system `s` in which the engine named `e`, which is `x`, has the turn and the moves `r` are pending; every
engine, every channel, the parameters and the host's answers are the same. -/
def GivesTurn (s u : State) (e : EngineId) (x : Engine) (r : List Move) : Prop :=
  u.self = e ∧ u.eng = x ∧ u.agenda = r ∧ u.chans = s.chans ∧ u.nextChan = s.nextChan ∧ u.cfg = s.cfg ∧
    u.replies = s.replies ∧ ∀ f, findEngine u f = findEngine s f

/-- The engine that has the turn is about to fetch and execute `i`: no move is pending and no other engine can step
(40_engine.md R72). -/
def AboutToExecute (s : State) (i : Instr) : Prop :=
  s.agenda = [] ∧ CanStep s.eng ∧ (∀ p ∈ s.others, ¬ CanStep p.2) ∧ fetch s.eng = .ok i

/-- No instruction step is enabled from these (40_engine.md R75). -/
def Status.Ended (st : Status) : Prop := st = .halted ∨ ∃ f, st = .faulted f

/-! ### The grammar of the program text (70_reset_and_hazards.md R117) -/

/-- `digit`, with its value. -/
inductive DigitText : Char → Nat → Prop where
  | zero : DigitText '0' 0
  | one : DigitText '1' 1
  | two : DigitText '2' 2
  | three : DigitText '3' 3
  | four : DigitText '4' 4
  | five : DigitText '5' 5
  | six : DigitText '6' 6
  | seven : DigitText '7' 7
  | eight : DigitText '8' 8
  | nine : DigitText '9' 9

/-- `digit+`, with the number it stands for in decimal. -/
inductive DigitsText : List Char → Nat → Prop where
  | one (c : Char) (n : Nat) (h : DigitText c n) : DigitsText [c] n
  | more (cs : List Char) (n : Nat) (c : Char) (d : Nat) (h : DigitsText cs n) (hd : DigitText c d) :
      DigitsText (cs ++ [c]) (10 * n + d)

/-- `int`, with its value. -/
inductive IntText : List Char → Int → Prop where
  | unsigned (ds : List Char) (n : Nat) (h : DigitsText ds n) : IntText ds n
  | plus (ds : List Char) (n : Nat) (h : DigitsText ds n) : IntText ('+' :: ds) n
  | minus (ds : List Char) (n : Nat) (h : DigitsText ds n) : IntText ('-' :: ds) (-(n : Int))

/-- `ws`. -/
def IsBlank (c : Char) : Prop := c = ' ' ∨ c = '\t' ∨ c = '\r' ∨ c = '\n'

/-- `ws* int ws*`, with a value in range. -/
def PieceText (cs : List Char) (v : I64) : Prop :=
  ∃ before body after, (∀ c ∈ before, IsBlank c) ∧ (∀ c ∈ after, IsBlank c) ∧ IntText body v.val ∧
    cs = before ++ body ++ after

/-- `text`: one or more pieces with a comma between two, and the image they stand for. -/
inductive ProgramText : List Char → List I64 → Prop where
  | one (p : List Char) (v : I64) (h : PieceText p v) : ProgramText p [v]
  | more (p r : List Char) (v : I64) (vs : List I64) (h : PieceText p v) (hr : ProgramText r vs) :
      ProgramText (p ++ ',' :: r) (v :: vs)

/-! ### Invariants of the system -/

/-- Every engine's memory is in canonical form (10_state.md R25). -/
def MemoriesCanonical (s : State) : Prop := ∀ x ∈ allEngines s, x.mem.wf

/-- Every engine has one name (60_exceptions.md R108). -/
def NamesCanonical (s : State) : Prop := SparseSorted s.others ∧ ∀ p ∈ s.others, p.1 ≠ s.self

/-- The map of channels is in canonical form and lists only channels that were created. -/
def ChannelsCanonical (s : State) : Prop :=
  SparseCanonical Channel.new s.chans ∧ ∀ p ∈ s.chans, p.1 < s.nextChan

/-- An endpoint an engine holds is a live end of a created channel (10_state.md R29). -/
def EndsLive (s : State) : Prop :=
  ∀ x ∈ allEngines s,
    (∀ c, x.inp = some c → c < s.nextChan ∧ (getChannel s c).receiverAlive = true) ∧
    (∀ c, x.outp = some c → c < s.nextChan ∧ (getChannel s c).senderAlive = true)

/-- A channel has one producer and one consumer: no two engines hold the same end (10_state.md R28). -/
def EndsExclusive (s : State) : Prop :=
  ∀ e f x y, findEngine s e = some x → findEngine s f = some y → ∀ c,
    (x.inp = some c → y.inp = some c → e = f) ∧ (x.outp = some c → y.outp = some c → e = f)

/-- Who holds which end of a channel is consistent. -/
def OwnershipInv (s : State) : Prop := NamesCanonical s ∧ ChannelsCanonical s ∧ EndsLive s ∧ EndsExclusive s

/-- Only a Running engine is inside a run, and the host waits for at most one (60_exceptions.md R105 to R107). -/
def RunInv (s : State) : Prop :=
  NamesCanonical s ∧ (∀ x ∈ allEngines s, x.run ≠ .idle → x.status = .running) ∧
    ∀ e f x y, findEngine s e = some x → findEngine s f = some y → x.run = .inline → y.run = .inline → e = f

end Sys2Proof.Machine
end

