-- ==== Sys2Proof/Certificates/Slice0/Obligations.lean ====
section
/-! DEFINITION. The statements for the provers, from the numbered rules of spec/. -/

open Sys2Proof Sys2Proof.Machine

/-! ### Encoding and decoding -/

/-- 30_encoding.md R48 to R52, R68: an engine whose memory holds the cells of `i` at `ip` fetches `i`, for every operand
mode and every raw cell. That an instruction with a mode digit 3 to 9 is fetched, and faults when it resolves its slots, is the
model's reading of R62 and R65 (log 5). -/
def Obligations.FetchOfEncodedIsTheInstruction : Prop :=
  ∀ (i : Instr) (x : Engine),
    (∀ k, k < i.length → memRead x.mem (x.ip + k) = (encode i).getD k I64.zero) → fetch x = .ok i

/-- 30_encoding.md R68, 95_test_vectors.md V23 to V29: words written out by hand decode to the instruction they stand
for. -/
def Obligations.WordsWrittenOutDecode : Prop :=
  decode (I64.wrap 2101) (fun k => [I64.wrap 3, I64.wrap (-1), I64.wrap 5].getD k I64.zero) =
      .ok (.add ⟨.immediate, I64.wrap 3⟩ ⟨.relative, I64.wrap (-1)⟩ ⟨.position, I64.wrap 5⟩) ∧
    decode (I64.wrap 21202) (fun k => [I64.wrap 10, I64.wrap 2, I64.wrap 20].getD k I64.zero) =
      .ok (.mul ⟨.relative, I64.wrap 10⟩ ⟨.immediate, I64.wrap 2⟩ ⟨.relative, I64.wrap 20⟩) ∧
    decode (I64.wrap 203) (fun k => [I64.wrap 10].getD k I64.zero) = .ok (.input ⟨.relative, I64.wrap 10⟩) ∧
    decode (I64.wrap 104) (fun k => [I64.wrap (-7)].getD k I64.zero) = .ok (.output ⟨.immediate, I64.wrap (-7)⟩) ∧
    decode (I64.wrap 1105) (fun k => [I64.wrap 1, I64.wrap 4].getD k I64.zero) =
      .ok (pseudoJmp ⟨.immediate, I64.wrap 4⟩) ∧
    decode (I64.wrap 1001) (fun k => [I64.wrap 9, I64.wrap 0, I64.wrap 10].getD k I64.zero) =
      .ok (pseudoMov ⟨.position, I64.wrap 9⟩ ⟨.position, I64.wrap 10⟩) ∧
    decode (I64.wrap 99) (fun _ => I64.zero) = .ok .halt

/-- 30_encoding.md R50: the two low digits are the word modulo 100, and a word below 0 has no opcode. -/
def Obligations.OpcodeIsWordModHundred : Prop :=
  (∀ w : Nat, opcodeOf w = digit w 1 * 10 + digit w 0 ∧ opcodeOf w = w % 100) ∧
    ∀ (w : I64) (raw : Nat → I64), w.val < 0 → decode w raw = .error (.negativeWord w)

/-- 30_encoding.md R60, R62, R65: exactly the words with an opcode of the table decode, each to the instruction of its
opcode. That decoding refuses no word for a mode digit, which R65 gives a fault, is the model's split of decoder and resolver
(log 5). -/
def Obligations.DecodeAcceptsExactlyTheTable : Prop :=
  ∀ (w : I64) (raw : Nat → I64),
    ((∃ i, decode w raw = .ok i) ↔ 0 ≤ w.val ∧ w.val % 100 ∈ ([1, 2, 3, 4, 5, 6, 7, 8, 9, 99] : List Int)) ∧
      ∀ i, decode w raw = .ok i → w.val % 100 = (i.opcode : Int)

/-- 30_encoding.md R64: digits that are neither the opcode nor the mode of a slot the operation has are never read. -/
def Obligations.UnusedDigitsAreIgnored : Prop :=
  (∀ (v w : I64) (raw : Nat → I64) (i : Instr), 0 ≤ v.val → 0 ≤ w.val → v.val % 100 = w.val % 100 →
      (∀ k, k < i.slots.length → digit v.val.toNat (2 + k) = digit w.val.toNat (2 + k)) →
      decode v raw = .ok i → decode w raw = .ok i) ∧
    ∀ raw : Nat → I64,
      decode (I64.wrap 199) raw = .ok .halt ∧ decode (I64.wrap 1099) raw = .ok .halt ∧
        decode (I64.wrap 21199) raw = .ok .halt ∧
        decode (I64.wrap 100001) raw = .ok (.add ⟨.position, raw 0⟩ ⟨.position, raw 1⟩ ⟨.position, raw 2⟩) ∧
        decode (I64.wrap 11104) raw = .ok (.output ⟨.immediate, raw 0⟩)

/-- 30_encoding.md R61: the length is fixed by the opcode and is the number of slots plus one. -/
def Obligations.LengthIsSlotsPlusOne : Prop :=
  ∀ i : Instr,
    i.length = i.slots.length + 1 ∧ (i.length = 4 ↔ i.opcode ∈ [1, 2, 7, 8]) ∧ (i.length = 2 ↔ i.opcode ∈ [3, 4, 9]) ∧
      (i.length = 3 ↔ i.opcode ∈ [5, 6]) ∧ (i.length = 1 ↔ i.opcode = 99)

/-! ### The step and its faults -/

/-- 40_engine.md R72: with no other move pending, the step of a running engine is the execution of the instruction it
fetches; nothing is added around it. -/
def Obligations.StepRunsTheFetchedInstruction : Prop :=
  ∀ (s : State) (i : Instr), AboutToExecute s i → step s = exec i s

/-- 60_exceptions.md R109, 40_engine.md R76, with log 6 and log 26 for how the model schedules. The next step executes what the
engine whose turn it is fetches, with every engine, the channels and the rest of the agenda as they were: the engine that a
pending move names, the only engine that can step, or else, with no move pending, some engine that can step, which ends with
InvalidOpcode where what it finds is no instruction (30_encoding.md R62; log 15). -/
def Obligations.ScheduledTurnRunsThatEngine : Prop :=
  (∀ (s : State) (e : EngineId) (x : Engine) (r : List Move) (i : Instr), NamesCanonical s → NextIs s e r →
    findEngine s e = some x → CanStep x → fetch x = .ok i →
    ∃ u, GivesTurn s u e x r ∧ u.choices = s.choices ∧ step s = exec i u) ∧
  ∀ s : State, NamesCanonical s → s.agenda = [] → (∃ e x, findEngine s e = some x ∧ CanStep x) →
    ∃ e x u, findEngine s e = some x ∧ CanStep x ∧ GivesTurn s u e x [] ∧
      (u.choices = s.choices ∨ u.choices = s.choices + 1) ∧
      ((∃ i, fetch x = .ok i ∧ step s = exec i u) ∨
        (FindsNoInstruction x ∧
          ∃ t, step s = .next t ∧ TakesFault u t (.invalidOpcode (memRead x.mem x.ip))))

/-- 40_engine.md R79, R72: execution always answers a next state: no instruction stops the machine. For a held Input, which
R72 answers with Hold, that is the model's choice (log 8). -/
def Obligations.EveryInstructionAnswers : Prop := ∀ (i : Instr) (s : State), ∃ t, exec i s = .next t

/-- 30_encoding.md R62, 60_exceptions.md R98: a word that is no instruction ends the engine with InvalidOpcode, and nothing
else happens but what the end of its run brings (log 15 for the step in which a spawned engine drops its ends). -/
def Obligations.InvalidOpcodeEndsTheEngine : Prop :=
  ∀ (s : State) (e : EngineId) (x : Engine) (r : List Move), NamesCanonical s → NextIs s e r →
    findEngine s e = some x → CanStep x → FindsNoInstruction x →
    ∃ u t, GivesTurn s u e x r ∧ step s = .next t ∧ TakesFault u t (.invalidOpcode (memRead x.mem x.ip))

/-- 60_exceptions.md R99, 30_encoding.md R62: the first slot that does not resolve is the one reported, before anything the
operation itself checks; nothing else happens but what the end of the run brings (log 15). -/
def Obligations.FirstSlotFaultIsReported : Prop :=
  ∀ (i : Instr) (s : State) (f : FaultCause), FirstSlotFault s.cfg s.eng 0 i.slots f →
    ∃ t, exec i s = .next t ∧ TakesFault s t f

/-- 60_exceptions.md R98: whichever engine moves, a step that faults it changes no cell, no extent, not its `ip`, not its
`rb`, takes no value and sends none. -/
def Obligations.FaultsArePrecise : Prop :=
  ∀ (s t : State) (e : EngineId) (x y : Engine) (f : FaultRecord), NamesCanonical s → findEngine s e = some x →
    x.status = .running → step s = .next t → findEngine t e = some y → y.status = .faulted f →
    SameRegistersAndMemory x y ∧ ∀ c, (getChannel t c).queue = (getChannel s c).queue

/-- 60_exceptions.md R96: the record holds the code of rule R95 for its cause, from 1 to 9, the address of the faulting
instruction and its opcode word, and an inline run returns it as its error. -/
def Obligations.FaultRecordNamesItsInstruction : Prop :=
  ((∀ w, FaultCause.code (.invalidOpcode w) = 1) ∧ (∀ k, FaultCause.code (.illegalWriteMode k) = 2) ∧
    (∀ k a, FaultCause.code (.negativeAddress k a) = 3) ∧ FaultCause.code .noInputChannel = 4 ∧
    FaultCause.code .noOutputChannel = 5 ∧ (∀ d, FaultCause.code (.channelClosed d) = 6) ∧
    (∀ k d, FaultCause.code (.invalidMode k d) = 7) ∧ (∀ r, FaultCause.code (.arithmeticOverflow r) = 8) ∧
    ∀ a, FaultCause.code (.resourceExhausted a) = 9) ∧
  ∀ (s t : State) (e : EngineId) (x y : Engine) (f : FaultRecord), NamesCanonical s → findEngine s e = some x →
    x.status = .running → step s = .next t → findEngine t e = some y → y.status = .faulted f →
    1 ≤ f.cause.code ∧ f.cause.code ≤ 9 ∧ f.ip = x.ip ∧ f.word = memRead x.mem x.ip ∧
      (x.run = .inline → t.replies = s.replies ++ [.ran e (some f)])

/-- 40_engine.md R75, R76: an ended engine has no step, and engines inside a run never stop stepping. In the model
(log 7, log 9) a turn of an ended engine changes nothing, and the system stops exactly where no move is pending and no engine
can step. -/
def Obligations.EndedEngineHasNoStep : Prop :=
  (∀ (s : State) (e : EngineId) (x : Engine) (r : List Move), NamesCanonical s → s.agenda = .turn e :: r →
    findEngine s e = some x → x.status.Ended → step s = .next { s with agenda := r }) ∧
  (∀ s : State, s.agenda = [] → (∀ x ∈ allEngines s, ¬ CanStep x) →
    (s.eng.status.Ended → step s = .fault .ended) ∧ (s.eng.status = .running → step s = .fault .notInRun)) ∧
  ∀ s : State, NamesCanonical s → (s.agenda ≠ [] ∨ ∃ x ∈ allEngines s, CanStep x) → ∃ t, step s = .next t

/-- 40_engine.md R75: only a load leaves Halted or Faulted, whatever engine or host action moves. -/
def Obligations.OnlyLoadLeavesEndedStatus : Prop :=
  ∀ (s t : State) (e : EngineId) (x : Engine), NamesCanonical s → findEngine s e = some x → x.status.Ended →
    step s = .next t →
    ∃ y, findEngine t e = some y ∧
      ((y.status = x.status ∧ SameRegistersAndMemory x y) ∨
        ∃ r, (∃ image, s.agenda = .host (.load e image) :: r) ∨ ∃ text, s.agenda = .host (.loadText e text) :: r)

/-! ### Arithmetic -/

/-- 41_arith.md R80, R81: Add writes the exact sum, advances by 4, and changes nothing else. -/
def Obligations.AddStoresTheSum : Prop :=
  ∀ (s : State) (a b out : Operand) (u v r : I64) (d : Nat), s.eng.mem.wf → ReadsAs s.eng a u → ReadsAs s.eng b v →
    WritesTo s.cfg s.eng out d → r.val = u.val + v.val →
    ∃ t, exec (.add a b out) s = .next t ∧ StoredAt s.eng.mem t.eng.mem d r ∧ t.eng.ip = s.eng.ip + 4 ∧
      SameButMemoryAndIp s.eng t.eng ∧ SameOutside s t

/-- 41_arith.md R80, R82: Multiply writes the exact product, advances by 4, and changes nothing else. -/
def Obligations.MultiplyStoresTheProduct : Prop :=
  ∀ (s : State) (a b out : Operand) (u v r : I64) (d : Nat), s.eng.mem.wf → ReadsAs s.eng a u → ReadsAs s.eng b v →
    WritesTo s.cfg s.eng out d → r.val = u.val * v.val →
    ∃ t, exec (.mul a b out) s = .next t ∧ StoredAt s.eng.mem t.eng.mem d r ∧ t.eng.ip = s.eng.ip + 4 ∧
      SameButMemoryAndIp s.eng t.eng ∧ SameOutside s t

/-- 41_arith.md R80 to R82, 45_relbase.md R93: under the policy `fault`, a result outside I64 is ArithmeticOverflow with the
exact result, and nothing is written. For the ends of a spawned engine, log 15. -/
def Obligations.OverflowFaultsUnderFaultPolicy : Prop :=
  ∀ (s : State) (a b out : Operand) (u v : I64) (d : Nat), s.cfg.overflowPolicy = .fault → ReadsAs s.eng a u →
    ReadsAs s.eng b v → WritesTo s.cfg s.eng out d →
    (¬ I64.InRange (u.val + v.val) →
      ∃ t, exec (.add a b out) s = .next t ∧ TakesFault s t (.arithmeticOverflow (u.val + v.val))) ∧
    (¬ I64.InRange (u.val * v.val) →
      ∃ t, exec (.mul a b out) s = .next t ∧ TakesFault s t (.arithmeticOverflow (u.val * v.val))) ∧
    (¬ I64.InRange (s.eng.rb.val + u.val) →
      ∃ t, exec (.relativeBaseOffset a) s = .next t ∧ TakesFault s t (.arithmeticOverflow (s.eng.rb.val + u.val)))

/-- 41_arith.md R80: under the policy `wrap`, the three instructions write the two's-complement reduction of the exact
result, whatever it is, and change nothing else. -/
def Obligations.OverflowWrapsUnderWrapPolicy : Prop :=
  ∀ (s : State) (a b out : Operand) (u v : I64) (d : Nat), s.cfg.overflowPolicy = .wrap → s.eng.mem.wf →
    ReadsAs s.eng a u → ReadsAs s.eng b v → WritesTo s.cfg s.eng out d →
    (∃ t, exec (.add a b out) s = .next t ∧ t.eng.ip = s.eng.ip + 4 ∧ SameButMemoryAndIp s.eng t.eng ∧ SameOutside s t ∧
      ∃ r : I64, r.val = (u.val + v.val + 2 ^ 63) % 2 ^ 64 - 2 ^ 63 ∧ StoredAt s.eng.mem t.eng.mem d r) ∧
    (∃ t, exec (.mul a b out) s = .next t ∧ t.eng.ip = s.eng.ip + 4 ∧ SameButMemoryAndIp s.eng t.eng ∧ SameOutside s t ∧
      ∃ r : I64, r.val = (u.val * v.val + 2 ^ 63) % 2 ^ 64 - 2 ^ 63 ∧ StoredAt s.eng.mem t.eng.mem d r) ∧
    ∃ t, exec (.relativeBaseOffset a) s = .next t ∧ t.eng.ip = s.eng.ip + 2 ∧ t.eng.mem = s.eng.mem ∧
      t.eng.status = s.eng.status ∧ t.eng.inp = s.eng.inp ∧ t.eng.outp = s.eng.outp ∧ t.eng.run = s.eng.run ∧
      SameOutside s t ∧ t.eng.rb.val = (s.eng.rb.val + u.val + 2 ^ 63) % 2 ^ 64 - 2 ^ 63

/-- 30_encoding.md R69: what `jmp` and `mov` stand for. `jmp` always takes its jump (a negative target is the fault of a
taken jump), and `mov` copies the value and never overflows. -/
def Obligations.PseudoInstructionsJumpAndCopy : Prop :=
  ∀ (s : State) (src dst : Operand) (u : I64) (d : Nat), s.eng.mem.wf → ReadsAs s.eng src u →
    pseudoJmp src = .jumpIfTrue ⟨.immediate, I64.wrap 1⟩ src ∧
    pseudoMov src dst = .add src ⟨.immediate, I64.wrap 0⟩ dst ∧
    (∀ n : Nat, u.val = (n : Int) → ∃ t, exec (pseudoJmp src) s = .next t ∧ t.eng.ip = n) ∧
    (u.val < 0 →
      ∃ t k, exec (pseudoJmp src) s = .next t ∧ t.eng.status = .faulted (recordOf (.negativeAddress k u.val) s.eng) ∧
        SameRegistersAndMemory s.eng t.eng ∧ (∀ c, (getChannel t c).queue = (getChannel s c).queue) ∧
        t.self = s.self ∧ t.others = s.others ∧ t.cfg = s.cfg) ∧
    (WritesTo s.cfg s.eng dst d →
      ∃ t, exec (pseudoMov src dst) s = .next t ∧ StoredAt s.eng.mem t.eng.mem d u ∧ t.eng.ip = s.eng.ip + 4 ∧
        t.eng.status = s.eng.status) ∧
    ∀ t f r, s.eng.status = .running → exec (pseudoMov src dst) s = .next t → t.eng.status = .faulted f →
      f.cause ≠ .arithmeticOverflow r

/-! ### Comparison -/

/-- 44_compare.md R90, R91: LessThan writes 1 or 0 by the signed comparison and changes nothing else. -/
def Obligations.LessThanStoresTheComparison : Prop :=
  ∀ (s : State) (a b out : Operand) (u v : I64) (d : Nat), s.eng.mem.wf → ReadsAs s.eng a u → ReadsAs s.eng b v →
    WritesTo s.cfg s.eng out d →
    ∃ t, exec (.lessThan a b out) s = .next t ∧
      (∃ r : I64, r.val = (if u.val < v.val then 1 else 0) ∧ StoredAt s.eng.mem t.eng.mem d r) ∧
      t.eng.ip = s.eng.ip + 4 ∧ SameButMemoryAndIp s.eng t.eng ∧ SameOutside s t

/-- 44_compare.md R90, R92: Equals writes 1 or 0 by equality and changes nothing else. -/
def Obligations.EqualsStoresTheComparison : Prop :=
  ∀ (s : State) (a b out : Operand) (u v : I64) (d : Nat), s.eng.mem.wf → ReadsAs s.eng a u → ReadsAs s.eng b v →
    WritesTo s.cfg s.eng out d →
    ∃ t, exec (.equals a b out) s = .next t ∧
      (∃ r : I64, r.val = (if u.val = v.val then 1 else 0) ∧ StoredAt s.eng.mem t.eng.mem d r) ∧
      t.eng.ip = s.eng.ip + 4 ∧ SameButMemoryAndIp s.eng t.eng ∧ SameOutside s t

/-- 44_compare.md R90: no comparison overflows, in any state. -/
def Obligations.ComparisonsNeverOverflow : Prop :=
  ∀ (s t : State) (a b out : Operand) (f : FaultRecord), s.eng.status = .running →
    (exec (.lessThan a b out) s = .next t ∨ exec (.equals a b out) s = .next t) → t.eng.status = .faulted f →
    ∀ r, f.cause ≠ .arithmeticOverflow r

/-! ### Input and Output -/

/-- 42_io.md R83, R85: Input takes the head of its queue into its cell, alive sender or not, and changes nothing else. -/
def Obligations.InputTakesTheHead : Prop :=
  ∀ (s : State) (out : Operand) (c : ChannelId) (v : I64) (rest : List I64) (d : Nat), s.eng.mem.wf →
    WritesTo s.cfg s.eng out d → s.eng.inp = some c → (getChannel s c).queue = v :: rest →
    ∃ t, exec (.input out) s = .next t ∧ StoredAt s.eng.mem t.eng.mem d v ∧ t.eng.ip = s.eng.ip + 2 ∧
      SameButMemoryAndIp s.eng t.eng ∧ SameOutsideButQueue s t c rest

/-- 40_engine.md R74, 42_io.md R85, and log 8 for how the model says it: Input on an empty queue with a live sender leaves
the whole state as it is. -/
def Obligations.InputHoldsOnAnEmptyQueue : Prop :=
  ∀ (s : State) (out : Operand) (c : ChannelId) (d : Nat), WritesTo s.cfg s.eng out d → s.eng.inp = some c →
    (getChannel s c).queue = [] → (getChannel s c).senderAlive = true →
    exec (.input out) s = .next s ∧ (AboutToExecute s (.input out) → step s = .next s)

/-- 40_engine.md R74, 60_exceptions.md R112: a held Input is released by a value the host pushes. -/
def Obligations.PushReleasesAHeldInput : Prop :=
  ∀ (s : State) (out : Operand) (c : ChannelId) (v : I64) (d : Nat) (r : List Move), s.eng.mem.wf →
    s.agenda = .host (.push c v) :: .turn s.self :: r → s.eng.status = .running → s.eng.run = .spawned →
    fetch s.eng = .ok (.input out) → WritesTo s.cfg s.eng out d → s.eng.inp = some c → (getChannel s c).queue = [] →
    (getChannel s c).receiverAlive = true → hostHoldsSend s c = true → hostWaits s = false →
    ∃ t u, step s = .next t ∧ t.eng = s.eng ∧ step t = .next u ∧ StoredAt s.eng.mem u.eng.mem d v ∧
      u.eng.ip = s.eng.ip + 2 ∧ (getChannel u c).queue = [] ∧ u.agenda = r

/-- 42_io.md R85, 60_exceptions.md R95, R99: Input with no endpoint is NoInputChannel, and on an empty queue whose sender is
gone ChannelClosed. For the ends of a spawned engine, log 15. -/
def Obligations.InputFaultsWithoutALiveChannel : Prop :=
  ∀ (s : State) (out : Operand) (d : Nat), WritesTo s.cfg s.eng out d →
    (s.eng.inp = none → ∃ t, exec (.input out) s = .next t ∧ TakesFault s t .noInputChannel) ∧
    ∀ c, s.eng.inp = some c → (getChannel s c).queue = [] → (getChannel s c).senderAlive = false →
      ∃ t, exec (.input out) s = .next t ∧ TakesFault s t (.channelClosed .input)

/-- 42_io.md R84, R86: Output appends its value to its queue and changes nothing else: memory and its extent stay. -/
def Obligations.OutputAppendsItsValue : Prop :=
  ∀ (s : State) (a : Operand) (c : ChannelId) (v : I64), ReadsAs s.eng a v → s.eng.outp = some c →
    (getChannel s c).receiverAlive = true →
    ∃ t, exec (.output a) s = .next t ∧ t.eng.mem = s.eng.mem ∧ t.eng.ip = s.eng.ip + 2 ∧
      SameButMemoryAndIp s.eng t.eng ∧ SameOutsideButQueue s t c ((getChannel s c).queue ++ [v])

/-- 42_io.md R86, 60_exceptions.md R95: Output with no endpoint is NoOutputChannel, and with no live receiver
ChannelClosed. For the ends of a spawned engine, log 15. -/
def Obligations.OutputFaultsWithoutALiveChannel : Prop :=
  ∀ (s : State) (a : Operand) (v : I64), ReadsAs s.eng a v →
    (s.eng.outp = none → ∃ t, exec (.output a) s = .next t ∧ TakesFault s t .noOutputChannel) ∧
    ∀ c, s.eng.outp = some c → (getChannel s c).receiverAlive = false →
      ∃ t, exec (.output a) s = .next t ∧ TakesFault s t (.channelClosed .output)

/-! ### Jumps, the relative base, Halt -/

/-- 43_jumps.md R88: JumpIfTrue with a test that is not 0 goes to its target, or faults on a negative one (slot 1, log 17);
with test 0 it advances by 3, whatever the target's value. Nothing else changes but what the end of a run brings (log 15). -/
def Obligations.JumpIfTrueTestsForNonzero : Prop :=
  ∀ (s : State) (test target : Operand) (u v : I64), ReadsAs s.eng test u → ReadsAs s.eng target v →
    (u.val ≠ 0 → ∀ n : Nat, v.val = (n : Int) →
      exec (.jumpIfTrue test target) s = .next { s with eng := { s.eng with ip := n } }) ∧
    (u.val ≠ 0 → v.val < 0 →
      ∃ t, exec (.jumpIfTrue test target) s = .next t ∧ TakesFault s t (.negativeAddress 1 v.val)) ∧
    (u.val = 0 → exec (.jumpIfTrue test target) s = .next { s with eng := { s.eng with ip := s.eng.ip + 3 } })

/-- 43_jumps.md R89: JumpIfFalse, with the condition inverted (slot 1, log 17; the ends of a spawned engine, log 15). -/
def Obligations.JumpIfFalseTestsForZero : Prop :=
  ∀ (s : State) (test target : Operand) (u v : I64), ReadsAs s.eng test u → ReadsAs s.eng target v →
    (u.val = 0 → ∀ n : Nat, v.val = (n : Int) →
      exec (.jumpIfFalse test target) s = .next { s with eng := { s.eng with ip := n } }) ∧
    (u.val = 0 → v.val < 0 →
      ∃ t, exec (.jumpIfFalse test target) s = .next t ∧ TakesFault s t (.negativeAddress 1 v.val)) ∧
    (u.val ≠ 0 → exec (.jumpIfFalse test target) s = .next { s with eng := { s.eng with ip := s.eng.ip + 3 } })

/-- 40_engine.md R73 (D7), R76, 43_jumps.md R88, R89: a taken jump of either kind to its own address changes nothing at all,
so the run never ends. -/
def Obligations.TakenJumpToItselfLoops : Prop :=
  ∀ (s : State) (test target : Operand) (u v : I64), ReadsAs s.eng test u → ReadsAs s.eng target v →
    v.val = (s.eng.ip : Int) →
    (u.val ≠ 0 →
      exec (.jumpIfTrue test target) s = .next s ∧ (AboutToExecute s (.jumpIfTrue test target) → step s = .next s)) ∧
    (u.val = 0 →
      exec (.jumpIfFalse test target) s = .next s ∧ (AboutToExecute s (.jumpIfFalse test target) → step s = .next s))

/-- 45_relbase.md R93: RelativeBaseOffset adds its operand, read at the old base, to `rb` and changes nothing else. -/
def Obligations.RelativeBaseAddsItsOperand : Prop :=
  ∀ (s : State) (a : Operand) (v r : I64), ReadsAs s.eng a v → r.val = s.eng.rb.val + v.val →
    ∃ t, exec (.relativeBaseOffset a) s = .next t ∧ t.eng.rb = r ∧ t.eng.mem = s.eng.mem ∧ t.eng.ip = s.eng.ip + 2 ∧
      t.eng.status = s.eng.status ∧ t.eng.inp = s.eng.inp ∧ t.eng.outp = s.eng.outp ∧ t.eng.run = s.eng.run ∧
      SameOutside s t

/-- 46_halt.md R94, 40_engine.md R77, and 60_exceptions.md R107 with log 15 for a spawned engine: Halt sets Halted, with
memory, `ip`, `rb` and every queue as they were; an inline run returns ok, a spawned engine drops its ends, and nothing else
happens. -/
def Obligations.HaltEndsTheEngine : Prop :=
  ∀ s : State, ∃ t, exec .halt s = .next t ∧ EndsRun s t .halted none

/-! ### Rules over all instructions -/

/-- 46_halt.md R94, 10_state.md R22: Halted is reached only by opcode 99. -/
def Obligations.OnlyHaltHalts : Prop :=
  ∀ (i : Instr) (s t : State), s.eng.status = .running → exec i s = .next t → t.eng.status = .halted → i = .halt

/-- 10_state.md R21: `rb` is written only by RelativeBaseOffset. -/
def Obligations.OnlyRelativeBaseOffsetWritesRb : Prop :=
  ∀ (i : Instr) (s t : State), exec i s = .next t → t.eng.rb ≠ s.eng.rb → ∃ a, i = .relativeBaseOffset a

/-- 20_memory.md R34, R35: an instruction changes at most the cell of its write parameter, and one that has none changes
neither memory nor its extent. -/
def Obligations.MemoryFrameOfEveryInstruction : Prop :=
  ∀ (i : Instr) (s t : State), s.eng.mem.wf → exec i s = .next t →
    ((∀ p ∈ i.slots, p.1 = .read) → t.eng.mem = s.eng.mem) ∧
    ∀ (out : Operand) (d : Nat), (SlotKind.write, out) ∈ i.slots → WritesTo s.cfg s.eng out d →
      ∀ b, b ≠ d → memRead t.eng.mem b = memRead s.eng.mem b

/-- 10_state.md R26: the extent of an engine's memory never decreases but by a load of that engine. -/
def Obligations.OnlyLoadShrinksTheExtent : Prop :=
  ∀ (s t : State) (e : EngineId) (x : Engine), NamesCanonical s → findEngine s e = some x → step s = .next t →
    ∃ y, findEngine t e = some y ∧
      (x.mem.extent ≤ y.mem.extent ∨
        ∃ r, (∃ image, s.agenda = .host (.load e image) :: r) ∨ ∃ text, s.agenda = .host (.loadText e text) :: r)

/-- 10_state.md R17, R27, R29: an instruction changes no other engine, and no channel but those of its two endpoints. -/
def Obligations.InstructionsAreIsolated : Prop :=
  ∀ (i : Instr) (s t : State), exec i s = .next t →
    t.self = s.self ∧ t.others = s.others ∧ t.nextChan = s.nextChan ∧ t.agenda = s.agenda ∧ t.choices = s.choices ∧
      ∀ c, s.eng.inp ≠ some c → s.eng.outp ≠ some c → getChannel t c = getChannel s c

/-- 20_memory.md R43, 42_io.md R83, R84: in every step of the system a queue stays, loses its head, or gains one value at its
tail. -/
def Obligations.QueuesAreFifo : Prop :=
  ∀ (s t : State) (c : ChannelId), c < s.nextChan → step s = .next t →
    (getChannel t c).queue = (getChannel s c).queue ∨ (∃ v, (getChannel s c).queue = v :: (getChannel t c).queue) ∨
      ∃ v, (getChannel t c).queue = (getChannel s c).queue ++ [v]

/-- 00_scope.md R10: the parameters are fixed: no step changes them. -/
def Obligations.ParametersNeverChange : Prop := ∀ s t : State, step s = .next t → t.cfg = s.cfg

/-! ### Reset, load and program text -/

/-- 10_state.md R33, with log 2 and log 3 for the empty image and the absent endpoints: the state right after reset. -/
def Obligations.ResetIsALoadOfTheEmptyImage : Prop :=
  State.reset.eng.ip = 0 ∧ State.reset.eng.rb.val = 0 ∧ State.reset.eng.status = .running ∧
    State.reset.eng.mem.extent = 0 ∧ (∀ a, (memRead State.reset.eng.mem a).val = 0) ∧ State.reset.eng.inp = none ∧
    State.reset.eng.outp = none ∧ State.reset.eng.run = .idle ∧ ∀ c, getChannel State.reset c = Channel.new

/-- 70_reset_and_hazards.md R113, and R117 for a load of a text of the grammar, which is the load of the image it stands for:
a load of an engine outside any run, whatever its status. -/
def Obligations.LoadResetsTheEngine : Prop :=
  ∀ (s : State) (e : EngineId) (x : Engine) (image : List I64) (r : List Move),
    (s.agenda = .host (.load e image) :: r ∨
      ∃ text, ProgramText text image ∧ s.agenda = .host (.loadText e text) :: r) →
    hostWaits s = false → findEngine s e = some x → x.run = .idle →
    ∃ t y, step s = .next t ∧ findEngine t e = some y ∧ (∀ a, memRead y.mem a = image.getD a I64.zero) ∧
      y.mem.extent = image.length ∧ y.ip = 0 ∧ y.rb.val = 0 ∧ y.status = .running ∧ y.run = .idle ∧ y.inp = x.inp ∧
      y.outp = x.outp ∧ t.chans = s.chans ∧ t.nextChan = s.nextChan ∧ t.cfg = s.cfg ∧
      ∀ f, f ≠ e → findEngine t f = findEngine s f

/-- 70_reset_and_hazards.md R116, with log 3 for the endpoints: an engine comes into existence with its first load, of an
image or of a text of the grammar. -/
def Obligations.FirstLoadCreatesTheEngine : Prop :=
  ∀ (s : State) (e : EngineId) (image : List I64) (r : List Move),
    (s.agenda = .host (.load e image) :: r ∨
      ∃ text, ProgramText text image ∧ s.agenda = .host (.loadText e text) :: r) →
    hostWaits s = false → findEngine s e = none →
    ∃ t y, step s = .next t ∧ findEngine t e = some y ∧ (∀ a, memRead y.mem a = image.getD a I64.zero) ∧
      y.mem.extent = image.length ∧ y.ip = 0 ∧ y.rb.val = 0 ∧ y.status = .running ∧ y.run = .idle ∧ y.inp = none ∧
      y.outp = none ∧ t.chans = s.chans ∧ ∀ f, f ≠ e → findEngine t f = findEngine s f

/-- 70_reset_and_hazards.md R117: the parser accepts exactly the grammar, and reads from a text the image it stands for. -/
def Obligations.ParserAcceptsExactlyTheGrammar : Prop :=
  ∀ (text : List Char) (image : List I64), parseText text = some image ↔ ProgramText text image

/-- 70_reset_and_hazards.md R118: a load of a text that does not parse, into an engine outside any run or under a new name,
reports a parse error, changes no engine and no channel, and creates no engine. -/
def Obligations.FailedParseChangesNothing : Prop :=
  ∀ (s : State) (e : EngineId) (text : List Char) (r : List Move),
    s.agenda = .host (.loadText e text) :: r → hostWaits s = false →
    (∀ x, findEngine s e = some x → x.run = .idle) → (∀ image, ¬ ProgramText text image) →
    step s = .next { s with agenda := r, replies := s.replies ++ [.parseError] }

/-! ### The host and several engines -/

/-- 60_exceptions.md R105 (D17): a host action leaves an engine that is inside a run exactly as it is. For run and spawn, of
which R105 asks only that the engine is loaded, that is the model's reading (log 14). -/
def Obligations.HostLeavesEnginesInsideARun : Prop :=
  ∀ (s t : State) (a : HostAction) (r : List Move) (e : EngineId) (x : Engine), NamesCanonical s →
    s.agenda = .host a :: r → step s = .next t → findEngine s e = some x → x.run ≠ .idle → findEngine t e = some x

/-- 60_exceptions.md R105: the host never writes an engine's memory, `ip` or `rb` except by load. -/
def Obligations.HostWritesEnginesOnlyByLoad : Prop :=
  ∀ (s t : State) (a : HostAction) (r : List Move) (e : EngineId) (x : Engine), NamesCanonical s →
    s.agenda = .host a :: r → step s = .next t → findEngine s e = some x → (∀ image, a ≠ .load e image) →
    (∀ text, a ≠ .loadText e text) → ∃ y, findEngine t e = some y ∧ SameRegistersAndMemory x y

/-- 60_exceptions.md R105: push, pop and the two drops on a channel end that the host holds. -/
def Obligations.HostActsOnTheEndsItHolds : Prop :=
  ∀ (s : State) (c : ChannelId) (r : List Move), hostWaits s = false →
    (∀ v, s.agenda = .host (.push c v) :: r → hostHoldsSend s c = true → (getChannel s c).receiverAlive = true →
      ∃ t, step s = .next t ∧ t.agenda = r ∧
        OnlyChannelChanges s t c { getChannel s c with queue := (getChannel s c).queue ++ [v] } .done) ∧
    (∀ v rest, s.agenda = .host (.pop c) :: r → hostHoldsRecv s c = true → (getChannel s c).queue = v :: rest →
      ∃ t, step s = .next t ∧ t.agenda = r ∧
        OnlyChannelChanges s t c { getChannel s c with queue := rest } (.value v)) ∧
    (s.agenda = .host (.dropSend c) :: r → hostHoldsSend s c = true →
      ∃ t, step s = .next t ∧ t.agenda = r ∧
        OnlyChannelChanges s t c { getChannel s c with senderAlive := false } .done) ∧
    (s.agenda = .host (.dropRecv c) :: r → hostHoldsRecv s c = true →
      ∃ t, step s = .next t ∧ t.agenda = r ∧
        OnlyChannelChanges s t c { getChannel s c with receiverAlive := false } .done)

/-- 60_exceptions.md R105, with log 12 for who holds an end: an attached end replaces the one the engine held, which goes
back to the host, and a detached one goes to the host, each with its channel and queue as they are. -/
def Obligations.AttachMovesTheEndpoint : Prop :=
  ∀ (s : State) (e : EngineId) (x : Engine) (r : List Move), OwnershipInv s → hostWaits s = false →
    findEngine s e = some x → x.run = .idle →
    (∀ c, s.agenda = .host (.attachInput e c) :: r → hostHoldsRecv s c = true →
      ∃ t, step s = .next t ∧ findEngine t e = some { x with inp := some c } ∧ t.chans = s.chans ∧
        (∀ f, f ≠ e → findEngine t f = findEngine s f) ∧ hostHoldsRecv t c = false ∧
        ∀ d, x.inp = some d → hostHoldsRecv t d = true) ∧
    (∀ c, s.agenda = .host (.attachOutput e c) :: r → hostHoldsSend s c = true →
      ∃ t, step s = .next t ∧ findEngine t e = some { x with outp := some c } ∧ t.chans = s.chans ∧
        (∀ f, f ≠ e → findEngine t f = findEngine s f) ∧ hostHoldsSend t c = false ∧
        ∀ d, x.outp = some d → hostHoldsSend t d = true) ∧
    (s.agenda = .host (.detachInput e) :: r →
      ∃ t, step s = .next t ∧ findEngine t e = some { x with inp := none } ∧ t.chans = s.chans ∧
        (∀ f, f ≠ e → findEngine t f = findEngine s f) ∧ ∀ d, x.inp = some d → hostHoldsRecv t d = true) ∧
    (s.agenda = .host (.detachOutput e) :: r →
      ∃ t, step s = .next t ∧ findEngine t e = some { x with outp := none } ∧ t.chans = s.chans ∧
        (∀ f, f ≠ e → findEngine t f = findEngine s f) ∧ ∀ d, x.outp = some d → hostHoldsSend t d = true)

/-- 10_state.md R28, with log 13: a created channel is new under a name that was in no use, and the host holds both its
ends. -/
def Obligations.CreatedChannelIsHeldByTheHost : Prop :=
  ∀ (s : State) (r : List Move), OwnershipInv s → s.agenda = .host .newChannel :: r → hostWaits s = false →
    ∃ t c, step s = .next t ∧ t.replies = s.replies ++ [.channel c] ∧ getChannel t c = Channel.new ∧
      hostHoldsSend t c = true ∧ hostHoldsRecv t c = true ∧ s.nextChan ≤ c ∧ hostHoldsSend s c = false ∧
      hostHoldsRecv s c = false ∧ (∀ x ∈ allEngines s, x.inp ≠ some c ∧ x.outp ≠ some c) ∧
      (∀ d, d ≠ c → getChannel t d = getChannel s d) ∧ ∀ e, findEngine t e = findEngine s e

/-- 93_implementation_defined.md U16, U17, and 70_reset_and_hazards.md R116 for a name that no engine has: a host action
outside its precondition changes nothing. How the refusal shows, and
that run and spawn are refused inside a run, is the model's reading (log 14), and so is it that an attach needs an end the host
holds (log 12). -/
def Obligations.RefusedActionsChangeNothing : Prop :=
  ∀ (s : State) (a : HostAction) (r : List Move), s.agenda = .host a :: r →
    (hostWaits s = true ∨ a.LacksChannel s ∨
      (∃ e x, a.needsIdle = some e ∧ findEngine s e = some x ∧ x.run ≠ .idle) ∨
      ∃ e, a.needsIdle = some e ∧ findEngine s e = none ∧ (∀ image, a ≠ .load e image) ∧
        ∀ text, a ≠ .loadText e text) →
    step s = .next { s with agenda := r, replies := s.replies ++ [.refused] }

/-- 40_engine.md R77 (D11), 60_exceptions.md R105, R106: `run` on a Running engine outside any run gives it the turn inside an
inline run, for which the host then waits, and `run` on an ended engine returns its result at once, with no step. -/
def Obligations.RunEntersTheRunOrReturnsAtOnce : Prop :=
  ∀ (s : State) (e : EngineId) (x : Engine) (r : List Move), NamesCanonical s → s.agenda = .host (.run e) :: r →
    hostWaits s = false → findEngine s e = some x → x.run = .idle →
    (x.status = .running →
      ∃ t, step s = .next t ∧ t.self = e ∧ t.eng = { x with run := .inline } ∧ t.agenda = r ∧ t.chans = s.chans ∧
        t.nextChan = s.nextChan ∧ t.cfg = s.cfg ∧ t.replies = s.replies ∧ hostWaits t = true ∧
        ∀ f, f ≠ e → findEngine t f = findEngine s f) ∧
    (x.status = .halted → step s = .next { s with agenda := r, replies := s.replies ++ [.ran e none] }) ∧
    ∀ f, x.status = .faulted f → step s = .next { s with agenda := r, replies := s.replies ++ [.ran e (some f)] }

/-- 10_state.md R31, with log 24 for the action that reads the status: the readout of an engine outside any run is the list
of its cells below the extent, and its status with its fault record. -/
def Obligations.ReadoutsReturnCellsAndStatus : Prop :=
  ∀ (s : State) (e : EngineId) (x : Engine) (r : List Move), hostWaits s = false → findEngine s e = some x →
    x.run = .idle →
    (s.agenda = .host (.readMemory e) :: r →
      ∃ cells : List I64, step s = .next { s with agenda := r, replies := s.replies ++ [.memory cells] } ∧
        cells.length = x.mem.extent ∧ ∀ a, a < x.mem.extent → cells[a]? = some (memRead x.mem a)) ∧
    (s.agenda = .host (.readStatus e) :: r →
      step s = .next { s with agenda := r, replies := s.replies ++ [.status x.status] })

/-- 60_exceptions.md R107 (D30): spawn gives each side without an endpoint a fresh channel, whose other end goes to the host,
and keeps an endpoint already attached, with its channel as it is. -/
def Obligations.SpawnConnectsTheMissingSides : Prop :=
  ∀ (s : State) (e : EngineId) (x : Engine) (r : List Move), EndsLive s → s.agenda = .host (.spawn e) :: r →
    hostWaits s = false → findEngine s e = some x → x.run = .idle → x.status = .running →
    ∃ t y, step s = .next t ∧ findEngine t e = some y ∧ y.run = .spawned ∧ y.status = .running ∧
      SameRegistersAndMemory x y ∧ (∀ f, f ≠ e → findEngine t f = findEngine s f) ∧
      (∀ d, d < s.nextChan → getChannel t d = getChannel s d) ∧ t.cfg = s.cfg ∧ t.agenda = r ∧
      (∀ c, x.inp = some c → y.inp = some c) ∧ (∀ c, x.outp = some c → y.outp = some c) ∧
      (x.inp = none → ∃ c, s.nextChan ≤ c ∧ c < t.nextChan ∧ y.inp = some c ∧ getChannel t c = Channel.new ∧
        y.outp ≠ some c) ∧
      (x.outp = none → ∃ c, s.nextChan ≤ c ∧ c < t.nextChan ∧ y.outp = some c ∧ getChannel t c = Channel.new) ∧
      t.replies = s.replies ++
        [.spawned (if x.inp = none then y.inp else none) (if x.outp = none then y.outp else none)]

/-- 60_exceptions.md R107 (D27), with log 15: a step that ends a spawned engine, whichever engine moves and whether by Halt or
by any fault, drops both endpoints it holds and no other end. -/
def Obligations.SpawnedEngineDropsItsEnds : Prop :=
  ∀ (s t : State) (e : EngineId) (x y : Engine), NamesCanonical s → findEngine s e = some x → x.status = .running →
    x.run = .spawned → step s = .next t → findEngine t e = some y → y.status.Ended →
    y.run = .idle ∧ DropsItsEnds s t x y

/-! ### Invariants -/

/-- 10_state.md R25: every step keeps every engine's memory in canonical form, with nothing but 0 at or above the extent. -/
def Obligations.StepKeepsMemoriesCanonical : Prop :=
  ∀ s t : State, MemoriesCanonical s → step s = .next t → MemoriesCanonical t

/-- 10_state.md R28, R29: every step keeps it so that an endpoint an engine holds is a live end that no other engine holds.
It rests on the model's readings that an attach needs an end the host holds (log 12) and that a spawned engine drops its ends in
the step in which it ends (log 15). -/
def Obligations.StepKeepsOwnership : Prop := ∀ s t : State, OwnershipInv s → step s = .next t → OwnershipInv t

/-- 60_exceptions.md R105 to R107, 40_engine.md R75: every step keeps it so that only Running engines are inside a run and
the host waits for at most one. -/
def Obligations.StepKeepsRunDiscipline : Prop := ∀ s t : State, RunInv s → step s = .next t → RunInv t

/-- The three invariants hold right after reset (log 2, log 3). -/
def Obligations.ResetMeetsTheInvariants : Prop :=
  MemoriesCanonical State.reset ∧ OwnershipInv State.reset ∧ RunInv State.reset
end

