-- ==== Sys2Proof/Laws/Decode.lean ====
section
/-! SUPPORT. Mode digits: each is below 10 and reads back as the mode it was written for. -/

namespace Sys2Proof

theorem digitOfMode_lt (m : Mode) : digitOfMode m < 10 := by
  cases m <;> simp [digitOfMode]
  omega

theorem modeOfDigit_digitOfMode (m : Mode) : modeOfDigit (digitOfMode m) = m := by
  cases m with
  | unassigned k =>
    simp only [digitOfMode, Nat.add_comm 3, modeOfDigit]
    congr 1
    exact Fin.ext (Nat.mod_eq_of_lt k.2)
  | _ => rfl

end Sys2Proof
end

