-- ==== Sys2Proof/Laws/Sparse.lean ====
section
/-! SUPPORT. Reading after writing in a sparse map, and that every operation keeps the canonical form. -/

namespace Sys2Proof.Machine

variable {α : Type}

@[simp] theorem sparseGet?_nil (k : Nat) : sparseGet? ([] : List (Nat × α)) k = none := rfl

theorem sparseGet?_put_same (t : List (Nat × α)) (k : Nat) (v : α) : sparseGet? (sparsePut t k v) k = some v := by
  induction t with
  | nil => simp [sparsePut, sparseGet?]
  | cons p r ih =>
    obtain ⟨j, w⟩ := p
    simp only [sparsePut]
    split
    · simp [sparseGet?]
    · split
      · simp [sparseGet?]
      · rename_i h
        simp [sparseGet?, Ne.symm h, ih]

theorem sparseGet?_put_ne (t : List (Nat × α)) {k l : Nat} (v : α) (h : l ≠ k) :
    sparseGet? (sparsePut t k v) l = sparseGet? t l := by
  induction t with
  | nil => simp [sparsePut, sparseGet?, Ne.symm h]
  | cons p r ih =>
    obtain ⟨j, w⟩ := p
    simp only [sparsePut]
    split
    · simp [sparseGet?, Ne.symm h]
    · split
      · rename_i h2
        subst h2
        simp [sparseGet?, Ne.symm h]
      · simp [sparseGet?, ih]

theorem sparseGet?_erase_same (t : List (Nat × α)) (k : Nat) : sparseGet? (sparseErase t k) k = none := by
  induction t with
  | nil => rfl
  | cons p r ih =>
    obtain ⟨j, w⟩ := p
    by_cases h : j = k <;> simp_all [sparseErase, sparseGet?]

theorem sparseGet?_erase_ne (t : List (Nat × α)) {k l : Nat} (h : l ≠ k) :
    sparseGet? (sparseErase t k) l = sparseGet? t l := by
  induction t with
  | nil => rfl
  | cons p r ih =>
    obtain ⟨j, w⟩ := p
    by_cases hj : j = k
    · subst hj
      simpa [sparseErase, sparseGet?, Ne.symm h] using ih
    · by_cases hl : j = l <;> simp_all [sparseErase, sparseGet?]

theorem sparseGet_set_same [DecidableEq α] (d : α) (t : List (Nat × α)) (k : Nat) (v : α) :
    sparseGet d (sparseSet d t k v) k = v := by
  unfold sparseSet sparseGet
  split
  · rename_i h
    simp [sparseGet?_erase_same, h]
  · simp [sparseGet?_put_same]

theorem sparseGet_set_ne [DecidableEq α] (d : α) (t : List (Nat × α)) {k l : Nat} (v : α) (h : l ≠ k) :
    sparseGet d (sparseSet d t k v) l = sparseGet d t l := by
  unfold sparseSet sparseGet
  split
  · rw [sparseGet?_erase_ne t h]
  · rw [sparseGet?_put_ne t v h]

theorem mem_of_sparseGet? {t : List (Nat × α)} {k : Nat} {v : α} (h : sparseGet? t k = some v) : (k, v) ∈ t := by
  induction t with
  | nil => simp [sparseGet?] at h
  | cons p r ih =>
    obtain ⟨j, w⟩ := p
    simp only [sparseGet?] at h
    split at h
    · simp_all
    · exact List.mem_cons_of_mem _ (ih h)

theorem sparseGet?_of_mem {t : List (Nat × α)} (hs : SparseSorted t) {p : Nat × α} (h : p ∈ t) :
    sparseGet? t p.1 = some p.2 := by
  induction t with
  | nil => simp at h
  | cons q r ih =>
    obtain ⟨j, w⟩ := q
    rw [SparseSorted, List.pairwise_cons] at hs
    rcases List.mem_cons.1 h with rfl | h'
    · simp [sparseGet?]
    · have := hs.1 p h'
      simp [sparseGet?, Nat.ne_of_lt this, ih hs.2 h']

/-- What a put lists: the new pair and what it listed before at other keys. -/
theorem mem_sparsePut {t : List (Nat × α)} {k : Nat} {v : α} {p : Nat × α} (h : p ∈ sparsePut t k v) :
    p = (k, v) ∨ p ∈ t := by
  induction t with
  | nil => simpa [sparsePut] using h
  | cons q r ih =>
    obtain ⟨j, w⟩ := q
    simp only [sparsePut] at h
    split at h
    · simpa using h
    · split at h
      · rcases List.mem_cons.1 h with h | h
        · exact .inl h
        · exact .inr (List.mem_cons_of_mem _ h)
      · rcases List.mem_cons.1 h with h | h
        · exact .inr (by simp [h])
        · exact (ih h).imp id (List.mem_cons_of_mem _)

theorem mem_sparseErase {t : List (Nat × α)} {k : Nat} {p : Nat × α} : p ∈ sparseErase t k ↔ p ∈ t ∧ p.1 ≠ k := by
  simp [sparseErase]

theorem sparsePut_sorted {t : List (Nat × α)} (k : Nat) (v : α) (hs : SparseSorted t) : SparseSorted (sparsePut t k v) := by
  induction t with
  | nil => simp [sparsePut]
  | cons q r ih =>
    obtain ⟨j, w⟩ := q
    have hs' := List.pairwise_cons.1 hs
    simp only [sparsePut]
    split
    · rename_i hkj
      refine List.pairwise_cons.2 ⟨fun p hp => ?_, hs⟩
      rcases List.mem_cons.1 hp with rfl | hp
      · exact hkj
      · exact hkj.trans (hs'.1 p hp)
    · split
      · rename_i hkj
        subst hkj
        exact List.pairwise_cons.2 ⟨hs'.1, hs'.2⟩
      · refine List.pairwise_cons.2 ⟨fun p hp => ?_, ih hs'.2⟩
        rcases mem_sparsePut hp with rfl | hp
        · dsimp only
          omega
        · exact hs'.1 p hp

theorem sparseErase_sorted {t : List (Nat × α)} (k : Nat) (hs : SparseSorted t) : SparseSorted (sparseErase t k) :=
  List.Pairwise.filter _ hs

/-- What a set lists: the new pair and what it listed before. -/
theorem mem_sparseSet [DecidableEq α] {d : α} {t : List (Nat × α)} {k : Nat} {v : α} {p : Nat × α}
    (h : p ∈ sparseSet d t k v) : p = (k, v) ∨ p ∈ t := by
  unfold sparseSet at h
  split at h
  · exact .inr (mem_sparseErase.1 h).1
  · exact mem_sparsePut h

theorem sparseSet_canonical [DecidableEq α] {d : α} {t : List (Nat × α)} (k : Nat) (v : α) (h : SparseCanonical d t) :
    SparseCanonical d (sparseSet d t k v) := by
  unfold sparseSet
  split
  · exact ⟨sparseErase_sorted k h.1, fun p hp => h.2 p (mem_sparseErase.1 hp).1⟩
  · rename_i hv
    refine ⟨sparsePut_sorted k v h.1, fun p hp => ?_⟩
    rcases mem_sparsePut hp with rfl | hp
    · exact hv
    · exact h.2 p hp

end Sys2Proof.Machine
end

