-- ==== Sys2Proof/Laws/State.lean ====
section
/-! SUPPORT. One lemma per field for each named update of the state, so that no proof unfolds a record update. -/

namespace Sys2Proof.Machine

@[simp] theorem advance_cfg (len : Nat) (s : State) : (advance len s).cfg = s.cfg := rfl
@[simp] theorem advance_self (len : Nat) (s : State) : (advance len s).self = s.self := rfl
@[simp] theorem advance_others (len : Nat) (s : State) : (advance len s).others = s.others := rfl
@[simp] theorem advance_chans (len : Nat) (s : State) : (advance len s).chans = s.chans := rfl
@[simp] theorem advance_nextChan (len : Nat) (s : State) : (advance len s).nextChan = s.nextChan := rfl
@[simp] theorem advance_agenda (len : Nat) (s : State) : (advance len s).agenda = s.agenda := rfl
@[simp] theorem advance_choices (len : Nat) (s : State) : (advance len s).choices = s.choices := rfl
@[simp] theorem advance_replies (len : Nat) (s : State) : (advance len s).replies = s.replies := rfl
@[simp] theorem advance_eng_mem (len : Nat) (s : State) : (advance len s).eng.mem = s.eng.mem := rfl
@[simp] theorem advance_eng_ip (len : Nat) (s : State) : (advance len s).eng.ip = s.eng.ip + len := rfl
@[simp] theorem advance_eng_rb (len : Nat) (s : State) : (advance len s).eng.rb = s.eng.rb := rfl
@[simp] theorem advance_eng_status (len : Nat) (s : State) : (advance len s).eng.status = s.eng.status := rfl
@[simp] theorem advance_eng_inp (len : Nat) (s : State) : (advance len s).eng.inp = s.eng.inp := rfl
@[simp] theorem advance_eng_outp (len : Nat) (s : State) : (advance len s).eng.outp = s.eng.outp := rfl
@[simp] theorem advance_eng_run (len : Nat) (s : State) : (advance len s).eng.run = s.eng.run := rfl

@[simp] theorem jumpTo_cfg (t : Nat) (s : State) : (jumpTo t s).cfg = s.cfg := rfl
@[simp] theorem jumpTo_self (t : Nat) (s : State) : (jumpTo t s).self = s.self := rfl
@[simp] theorem jumpTo_others (t : Nat) (s : State) : (jumpTo t s).others = s.others := rfl
@[simp] theorem jumpTo_chans (t : Nat) (s : State) : (jumpTo t s).chans = s.chans := rfl
@[simp] theorem jumpTo_nextChan (t : Nat) (s : State) : (jumpTo t s).nextChan = s.nextChan := rfl
@[simp] theorem jumpTo_agenda (t : Nat) (s : State) : (jumpTo t s).agenda = s.agenda := rfl
@[simp] theorem jumpTo_choices (t : Nat) (s : State) : (jumpTo t s).choices = s.choices := rfl
@[simp] theorem jumpTo_replies (t : Nat) (s : State) : (jumpTo t s).replies = s.replies := rfl
@[simp] theorem jumpTo_eng_mem (t : Nat) (s : State) : (jumpTo t s).eng.mem = s.eng.mem := rfl
@[simp] theorem jumpTo_eng_ip (t : Nat) (s : State) : (jumpTo t s).eng.ip = t := rfl
@[simp] theorem jumpTo_eng_rb (t : Nat) (s : State) : (jumpTo t s).eng.rb = s.eng.rb := rfl
@[simp] theorem jumpTo_eng_status (t : Nat) (s : State) : (jumpTo t s).eng.status = s.eng.status := rfl
@[simp] theorem jumpTo_eng_inp (t : Nat) (s : State) : (jumpTo t s).eng.inp = s.eng.inp := rfl
@[simp] theorem jumpTo_eng_outp (t : Nat) (s : State) : (jumpTo t s).eng.outp = s.eng.outp := rfl
@[simp] theorem jumpTo_eng_run (t : Nat) (s : State) : (jumpTo t s).eng.run = s.eng.run := rfl

@[simp] theorem storeCell_cfg (a : Nat) (v : I64) (s : State) : (storeCell a v s).cfg = s.cfg := rfl
@[simp] theorem storeCell_self (a : Nat) (v : I64) (s : State) : (storeCell a v s).self = s.self := rfl
@[simp] theorem storeCell_others (a : Nat) (v : I64) (s : State) : (storeCell a v s).others = s.others := rfl
@[simp] theorem storeCell_chans (a : Nat) (v : I64) (s : State) : (storeCell a v s).chans = s.chans := rfl
@[simp] theorem storeCell_nextChan (a : Nat) (v : I64) (s : State) : (storeCell a v s).nextChan = s.nextChan := rfl
@[simp] theorem storeCell_agenda (a : Nat) (v : I64) (s : State) : (storeCell a v s).agenda = s.agenda := rfl
@[simp] theorem storeCell_choices (a : Nat) (v : I64) (s : State) : (storeCell a v s).choices = s.choices := rfl
@[simp] theorem storeCell_replies (a : Nat) (v : I64) (s : State) : (storeCell a v s).replies = s.replies := rfl
@[simp] theorem storeCell_eng_mem (a : Nat) (v : I64) (s : State) : (storeCell a v s).eng.mem = memWrite s.eng.mem a v := rfl
@[simp] theorem storeCell_eng_ip (a : Nat) (v : I64) (s : State) : (storeCell a v s).eng.ip = s.eng.ip := rfl
@[simp] theorem storeCell_eng_rb (a : Nat) (v : I64) (s : State) : (storeCell a v s).eng.rb = s.eng.rb := rfl
@[simp] theorem storeCell_eng_status (a : Nat) (v : I64) (s : State) : (storeCell a v s).eng.status = s.eng.status := rfl
@[simp] theorem storeCell_eng_inp (a : Nat) (v : I64) (s : State) : (storeCell a v s).eng.inp = s.eng.inp := rfl
@[simp] theorem storeCell_eng_outp (a : Nat) (v : I64) (s : State) : (storeCell a v s).eng.outp = s.eng.outp := rfl
@[simp] theorem storeCell_eng_run (a : Nat) (v : I64) (s : State) : (storeCell a v s).eng.run = s.eng.run := rfl

@[simp] theorem setBase_cfg (v : I64) (s : State) : (setBase v s).cfg = s.cfg := rfl
@[simp] theorem setBase_self (v : I64) (s : State) : (setBase v s).self = s.self := rfl
@[simp] theorem setBase_others (v : I64) (s : State) : (setBase v s).others = s.others := rfl
@[simp] theorem setBase_chans (v : I64) (s : State) : (setBase v s).chans = s.chans := rfl
@[simp] theorem setBase_nextChan (v : I64) (s : State) : (setBase v s).nextChan = s.nextChan := rfl
@[simp] theorem setBase_agenda (v : I64) (s : State) : (setBase v s).agenda = s.agenda := rfl
@[simp] theorem setBase_choices (v : I64) (s : State) : (setBase v s).choices = s.choices := rfl
@[simp] theorem setBase_replies (v : I64) (s : State) : (setBase v s).replies = s.replies := rfl
@[simp] theorem setBase_eng_mem (v : I64) (s : State) : (setBase v s).eng.mem = s.eng.mem := rfl
@[simp] theorem setBase_eng_ip (v : I64) (s : State) : (setBase v s).eng.ip = s.eng.ip := rfl
@[simp] theorem setBase_eng_rb (v : I64) (s : State) : (setBase v s).eng.rb = v := rfl
@[simp] theorem setBase_eng_status (v : I64) (s : State) : (setBase v s).eng.status = s.eng.status := rfl
@[simp] theorem setBase_eng_inp (v : I64) (s : State) : (setBase v s).eng.inp = s.eng.inp := rfl
@[simp] theorem setBase_eng_outp (v : I64) (s : State) : (setBase v s).eng.outp = s.eng.outp := rfl
@[simp] theorem setBase_eng_run (v : I64) (s : State) : (setBase v s).eng.run = s.eng.run := rfl

@[simp] theorem setChannel_cfg (c : ChannelId) (ch : Channel) (s : State) : (setChannel c ch s).cfg = s.cfg := rfl
@[simp] theorem setChannel_self (c : ChannelId) (ch : Channel) (s : State) : (setChannel c ch s).self = s.self := rfl
@[simp] theorem setChannel_eng (c : ChannelId) (ch : Channel) (s : State) : (setChannel c ch s).eng = s.eng := rfl
@[simp] theorem setChannel_others (c : ChannelId) (ch : Channel) (s : State) : (setChannel c ch s).others = s.others := rfl
@[simp] theorem setChannel_nextChan (c : ChannelId) (ch : Channel) (s : State) : (setChannel c ch s).nextChan = s.nextChan := rfl
@[simp] theorem setChannel_agenda (c : ChannelId) (ch : Channel) (s : State) : (setChannel c ch s).agenda = s.agenda := rfl
@[simp] theorem setChannel_choices (c : ChannelId) (ch : Channel) (s : State) : (setChannel c ch s).choices = s.choices := rfl
@[simp] theorem setChannel_replies (c : ChannelId) (ch : Channel) (s : State) : (setChannel c ch s).replies = s.replies := rfl

@[simp] theorem setQueue_cfg (c : ChannelId) (q : List I64) (s : State) : (setQueue c q s).cfg = s.cfg := rfl
@[simp] theorem setQueue_self (c : ChannelId) (q : List I64) (s : State) : (setQueue c q s).self = s.self := rfl
@[simp] theorem setQueue_eng (c : ChannelId) (q : List I64) (s : State) : (setQueue c q s).eng = s.eng := rfl
@[simp] theorem setQueue_others (c : ChannelId) (q : List I64) (s : State) : (setQueue c q s).others = s.others := rfl
@[simp] theorem setQueue_nextChan (c : ChannelId) (q : List I64) (s : State) : (setQueue c q s).nextChan = s.nextChan := rfl
@[simp] theorem setQueue_agenda (c : ChannelId) (q : List I64) (s : State) : (setQueue c q s).agenda = s.agenda := rfl
@[simp] theorem setQueue_choices (c : ChannelId) (q : List I64) (s : State) : (setQueue c q s).choices = s.choices := rfl
@[simp] theorem setQueue_replies (c : ChannelId) (q : List I64) (s : State) : (setQueue c q s).replies = s.replies := rfl

@[simp] theorem dropSender_cfg (c : ChannelId) (s : State) : (dropSender c s).cfg = s.cfg := rfl
@[simp] theorem dropSender_self (c : ChannelId) (s : State) : (dropSender c s).self = s.self := rfl
@[simp] theorem dropSender_eng (c : ChannelId) (s : State) : (dropSender c s).eng = s.eng := rfl
@[simp] theorem dropSender_others (c : ChannelId) (s : State) : (dropSender c s).others = s.others := rfl
@[simp] theorem dropSender_nextChan (c : ChannelId) (s : State) : (dropSender c s).nextChan = s.nextChan := rfl
@[simp] theorem dropSender_agenda (c : ChannelId) (s : State) : (dropSender c s).agenda = s.agenda := rfl
@[simp] theorem dropSender_choices (c : ChannelId) (s : State) : (dropSender c s).choices = s.choices := rfl
@[simp] theorem dropSender_replies (c : ChannelId) (s : State) : (dropSender c s).replies = s.replies := rfl

@[simp] theorem dropReceiver_cfg (c : ChannelId) (s : State) : (dropReceiver c s).cfg = s.cfg := rfl
@[simp] theorem dropReceiver_self (c : ChannelId) (s : State) : (dropReceiver c s).self = s.self := rfl
@[simp] theorem dropReceiver_eng (c : ChannelId) (s : State) : (dropReceiver c s).eng = s.eng := rfl
@[simp] theorem dropReceiver_others (c : ChannelId) (s : State) : (dropReceiver c s).others = s.others := rfl
@[simp] theorem dropReceiver_nextChan (c : ChannelId) (s : State) : (dropReceiver c s).nextChan = s.nextChan := rfl
@[simp] theorem dropReceiver_agenda (c : ChannelId) (s : State) : (dropReceiver c s).agenda = s.agenda := rfl
@[simp] theorem dropReceiver_choices (c : ChannelId) (s : State) : (dropReceiver c s).choices = s.choices := rfl
@[simp] theorem dropReceiver_replies (c : ChannelId) (s : State) : (dropReceiver c s).replies = s.replies := rfl

@[simp] theorem createChannel_cfg (s : State) : (createChannel s).cfg = s.cfg := rfl
@[simp] theorem createChannel_self (s : State) : (createChannel s).self = s.self := rfl
@[simp] theorem createChannel_eng (s : State) : (createChannel s).eng = s.eng := rfl
@[simp] theorem createChannel_others (s : State) : (createChannel s).others = s.others := rfl
@[simp] theorem createChannel_nextChan (s : State) : (createChannel s).nextChan = s.nextChan + 1 := rfl
@[simp] theorem createChannel_agenda (s : State) : (createChannel s).agenda = s.agenda := rfl
@[simp] theorem createChannel_choices (s : State) : (createChannel s).choices = s.choices := rfl
@[simp] theorem createChannel_replies (s : State) : (createChannel s).replies = s.replies := rfl

@[simp] theorem reply_cfg (r : Reply) (s : State) : (reply r s).cfg = s.cfg := rfl
@[simp] theorem reply_self (r : Reply) (s : State) : (reply r s).self = s.self := rfl
@[simp] theorem reply_eng (r : Reply) (s : State) : (reply r s).eng = s.eng := rfl
@[simp] theorem reply_others (r : Reply) (s : State) : (reply r s).others = s.others := rfl
@[simp] theorem reply_nextChan (r : Reply) (s : State) : (reply r s).nextChan = s.nextChan := rfl
@[simp] theorem reply_agenda (r : Reply) (s : State) : (reply r s).agenda = s.agenda := rfl
@[simp] theorem reply_choices (r : Reply) (s : State) : (reply r s).choices = s.choices := rfl
@[simp] theorem reply_replies (r : Reply) (s : State) : (reply r s).replies = s.replies ++ [r] := rfl
@[simp] theorem reply_chans (r : Reply) (s : State) : (reply r s).chans = s.chans := rfl

end Sys2Proof.Machine
end

