-- ==== Sys2Proof/Laws/Engines.lean ====
section
/-! SUPPORT. Engines by name: finding one after another was set, and giving the turn to an engine changes no engine. -/

namespace Sys2Proof.Machine

theorem findEngine_self (s : State) : findEngine s s.self = some s.eng := by simp [findEngine]

theorem findEngine_setEngine_same (e : EngineId) (x : Engine) (s : State) : findEngine (setEngine e x s) e = some x := by
  by_cases h : e = s.self
  · subst h; simp [findEngine, setEngine]
  · simp [findEngine, setEngine, h, sparseGet?_put_same]

theorem findEngine_setEngine_ne {e f : EngineId} (x : Engine) (s : State) (h : f ≠ e) :
    findEngine (setEngine e x s) f = findEngine s f := by
  by_cases he : e = s.self
  · subst he; simp [findEngine, setEngine, h]
  · simp [findEngine, setEngine, he, sparseGet?_put_ne _ _ h]

@[simp] theorem setEngine_cfg (e : EngineId) (x : Engine) (s : State) : (setEngine e x s).cfg = s.cfg := by
  unfold setEngine; split <;> rfl

@[simp] theorem setEngine_self (e : EngineId) (x : Engine) (s : State) : (setEngine e x s).self = s.self := by
  unfold setEngine; split <;> rfl

@[simp] theorem setEngine_chans (e : EngineId) (x : Engine) (s : State) : (setEngine e x s).chans = s.chans := by
  unfold setEngine; split <;> rfl

@[simp] theorem setEngine_nextChan (e : EngineId) (x : Engine) (s : State) : (setEngine e x s).nextChan = s.nextChan := by
  unfold setEngine; split <;> rfl

@[simp] theorem setEngine_agenda (e : EngineId) (x : Engine) (s : State) : (setEngine e x s).agenda = s.agenda := by
  unfold setEngine; split <;> rfl

@[simp] theorem setEngine_choices (e : EngineId) (x : Engine) (s : State) : (setEngine e x s).choices = s.choices := by
  unfold setEngine; split <;> rfl

@[simp] theorem setEngine_replies (e : EngineId) (x : Engine) (s : State) : (setEngine e x s).replies = s.replies := by
  unfold setEngine; split <;> rfl

/-- What the list of engines holds after one was set: that one, or one it held before. -/
theorem mem_allEngines_setEngine {e : EngineId} {x y : Engine} {s : State} (h : y ∈ allEngines (setEngine e x s)) :
    y = x ∨ y ∈ allEngines s := by
  by_cases he : e = s.self
  · simp [allEngines, setEngine, he] at h ⊢
    exact h.imp id .inr
  · simp only [allEngines, setEngine, he, if_false, List.mem_cons, List.mem_map] at h ⊢
    rcases h with h | ⟨p, hp, rfl⟩
    · exact .inr (.inl h)
    · rcases mem_sparsePut hp with rfl | hp
      · exact .inl rfl
      · exact .inr (.inr ⟨p, hp, rfl⟩)

theorem setEngine_names {e : EngineId} {x : Engine} {s : State} (h : NamesCanonical s) : NamesCanonical (setEngine e x s) := by
  by_cases he : e = s.self
  · simpa [NamesCanonical, setEngine, he] using h
  · simp only [NamesCanonical, setEngine, he, if_false]
    refine ⟨sparsePut_sorted e x h.1, fun p hp => ?_⟩
    rcases mem_sparsePut hp with rfl | hp
    · exact he
    · exact h.2 p hp

/-- An engine of the system is one found by its name. -/
theorem mem_allEngines_iff {s : State} (h : NamesCanonical s) {x : Engine} :
    x ∈ allEngines s ↔ ∃ e, findEngine s e = some x := by
  constructor
  · intro hx
    rcases List.mem_cons.1 hx with rfl | hx
    · exact ⟨s.self, findEngine_self s⟩
    · obtain ⟨p, hp, rfl⟩ := List.mem_map.1 hx
      exact ⟨p.1, by simp [findEngine, h.2 p hp, sparseGet?_of_mem h.1 hp]⟩
  · rintro ⟨e, he⟩
    by_cases hs : e = s.self
    · simp only [findEngine, hs, if_true, Option.some.injEq] at he
      simp [allEngines, he]
    · simp only [findEngine, hs, if_false] at he
      exact List.mem_cons_of_mem _ (List.mem_map.2 ⟨(e, x), mem_of_sparseGet? he, rfl⟩)

/-- What giving the turn to engine `e` does: that engine becomes `eng`, and nothing else of the system changes. -/
theorem selectEngine_cases {e : EngineId} {s t : State} (hn : NamesCanonical s) (h : selectEngine e s = some t) :
    t.self = e ∧ findEngine s e = some t.eng ∧ (∀ f, findEngine t f = findEngine s f) ∧ NamesCanonical t ∧
      t.cfg = s.cfg ∧ t.chans = s.chans ∧ t.nextChan = s.nextChan ∧ t.agenda = s.agenda ∧ t.choices = s.choices ∧
      t.replies = s.replies := by
  unfold selectEngine at h
  split at h
  · rename_i he
    cases h
    subst he
    exact ⟨rfl, findEngine_self s, fun _ => rfl, hn, rfl, rfl, rfl, rfl, rfl, rfl⟩
  · rename_i he
    split at h
    · cases h
    · rename_i x hx
      cases h
      refine ⟨rfl, by simp [findEngine, he, hx], fun f => ?_, ⟨?_, fun p hp => ?_⟩, rfl, rfl, rfl, rfl, rfl, rfl⟩
      · by_cases hf : f = s.self
        · subst hf
          simp [findEngine, Ne.symm he, sparseGet?_put_same]
        · by_cases hfe : f = e
          · subst hfe
            simp [findEngine, he, hx]
          · simp [findEngine, hf, hfe, sparseGet?_put_ne _ _ hf, sparseGet?_erase_ne _ hfe]
      · exact sparsePut_sorted _ _ (sparseErase_sorted _ hn.1)
      · rcases mem_sparsePut hp with rfl | hp
        · exact Ne.symm he
        · exact (mem_sparseErase.1 hp).2

/-- An engine that exists can be given the turn. -/
theorem selectEngine_of_findEngine {e : EngineId} {s : State} {x : Engine} (h : findEngine s e = some x) :
    ∃ t, selectEngine e s = some t := by
  unfold selectEngine
  split
  · exact ⟨_, rfl⟩
  · rename_i he
    simp only [findEngine, he, if_false] at h
    simp [h]

end Sys2Proof.Machine
end

