-- ==== Sys2Proof/Laws/Memory.lean ====
section
/-! SUPPORT. Program Memory: a read after a write, and that a write and a load keep the canonical form (20_memory.md R34,
R35; 70_reset_and_hazards.md R113). -/

namespace Sys2Proof.Machine

/-- A cell at or above the extent lists nothing. -/
theorem sparseGet_above_extent {m : Memory} (h : m.wf) {a : Nat} (ha : m.extent ≤ a) :
    sparseGet I64.zero m.cells a = I64.zero := by
  unfold sparseGet
  cases hg : sparseGet? m.cells a with
  | none => rfl
  | some v => exact absurd (h.2 _ (mem_of_sparseGet? hg)) (by simpa using ha)

/-- In canonical form a read is a read of the cells, below the extent and above it. -/
theorem memRead_eq_sparseGet {m : Memory} (h : m.wf) (a : Nat) : memRead m a = sparseGet I64.zero m.cells a := by
  unfold memRead
  split
  · rfl
  · exact (sparseGet_above_extent h (by omega)).symm

theorem memWrite_extent (m : Memory) (a : Nat) (v : I64) : (memWrite m a v).extent = max m.extent (a + 1) := rfl

theorem memWrite_wf {m : Memory} (a : Nat) (v : I64) (h : m.wf) : (memWrite m a v).wf := by
  refine ⟨sparseSet_canonical a v h.1, fun p hp => ?_⟩
  have : p.1 < m.extent ∨ p.1 = a := by
    rcases mem_sparseSet hp with rfl | hp
    · exact .inr rfl
    · exact .inl (h.2 p hp)
  simp only [memWrite]
  omega

theorem memRead_memWrite_same (m : Memory) (a : Nat) (v : I64) : memRead (memWrite m a v) a = v := by
  have : a < max m.extent (a + 1) := by omega
  simp [memRead, memWrite, this, sparseGet_set_same]

theorem memRead_memWrite_ne {m : Memory} (h : m.wf) {a b : Nat} (v : I64) (hb : b ≠ a) :
    memRead (memWrite m a v) b = memRead m b := by
  rw [memRead_eq_sparseGet (memWrite_wf a v h), memRead_eq_sparseGet h]
  exact sparseGet_set_ne _ _ _ hb

theorem memEmpty_wf : Memory.empty.wf := by decide

/-! ### Loading an image -/

/-- The cells of an image lie from its first address up to its length, and none is 0. -/
theorem mem_imageCells {l : List I64} {a : Nat} {p : Nat × I64} (h : p ∈ imageCells a l) :
    a ≤ p.1 ∧ p.1 < a + l.length ∧ p.2 ≠ I64.zero := by
  induction l generalizing a with
  | nil => simp [imageCells] at h
  | cons v t ih =>
    simp only [imageCells] at h
    split at h
    · obtain ⟨h1, h2, h3⟩ := ih h
      simp only [List.length_cons]
      exact ⟨by omega, by omega, h3⟩
    · rename_i hv
      rcases List.mem_cons.1 h with rfl | h
      · simp [hv]
      · obtain ⟨h1, h2, h3⟩ := ih h
        simp only [List.length_cons]
        exact ⟨by omega, by omega, h3⟩

theorem imageCells_sorted (l : List I64) (a : Nat) : SparseSorted (imageCells a l) := by
  induction l generalizing a with
  | nil => simp [imageCells]
  | cons v t ih =>
    simp only [imageCells]
    split
    · exact ih _
    · refine List.pairwise_cons.2 ⟨fun p hp => ?_, ih _⟩
      have := mem_imageCells hp
      dsimp only
      omega

theorem memLoad_wf (image : List I64) : (memLoad image).wf := by
  refine ⟨⟨imageCells_sorted _ _, fun p hp => (mem_imageCells hp).2.2⟩, fun p hp => ?_⟩
  have := mem_imageCells hp
  simp only [memLoad]
  omega

theorem sparseGet_imageCells (l : List I64) (a k : Nat) :
    sparseGet I64.zero (imageCells a l) (a + k) = l.getD k I64.zero := by
  induction l generalizing a k with
  | nil => simp [imageCells, sparseGet]
  | cons v t ih =>
    cases k with
    | zero =>
      simp only [imageCells]
      split
      · rename_i hv
        subst hv
        unfold sparseGet
        cases hg : sparseGet? (imageCells (a + 1) t) (a + 0) with
        | none => rfl
        | some w =>
          have := mem_imageCells (mem_of_sparseGet? hg)
          dsimp only at this
          omega
      · simp [sparseGet, sparseGet?]
    | succ k =>
      have hk : a + (k + 1) = a + 1 + k := by omega
      simp only [imageCells]
      split
      · rw [hk, ih]
        simp
      · have := ih (a + 1) k
        simp only [sparseGet, sparseGet?] at this ⊢
        rw [if_neg (by omega), hk, this]
        simp

/-- After a load, cell `a` is cell `a` of the image, and 0 above it. -/
theorem memRead_memLoad (image : List I64) (a : Nat) : memRead (memLoad image) a = image.getD a I64.zero := by
  rw [memRead_eq_sparseGet (memLoad_wf image)]
  simpa [memLoad] using sparseGet_imageCells image 0 a

end Sys2Proof.Machine
end

