-- ==== Sys2Proof/Laws/Operands.lean ====
section
/-! SUPPORT. The resolver against the mode table: when it answers a value or an address, and which fault it reports
(30_encoding.md R53 to R59), and the overflow rule `fit` (41_arith.md R80). -/

namespace Sys2Proof.Machine

theorem checkAddress_ok {k : Nat} {a : Int} {n : Nat} : checkAddress k a = .ok n ↔ a = n := by
  unfold checkAddress
  split <;> simp <;> omega

theorem checkAddress_error {k : Nat} {a : Int} {f : FaultCause} :
    checkAddress k a = .error f ↔ a < 0 ∧ f = .negativeAddress k a := by
  unfold checkAddress
  split <;> simp_all [eq_comm]

theorem checkCap_ok {cfg : Config} {a n : Nat} : checkCap cfg a = .ok n ↔ n = a ∧ UnderCap cfg a := by
  unfold checkCap UnderCap
  cases cfg.memCap with
  | none => simp [eq_comm]
  | some c =>
    by_cases h : c ≤ a
    · simp [h]
    · simp [h, eq_comm]
      omega

theorem checkCap_error {cfg : Config} {a : Nat} {f : FaultCause} :
    checkCap cfg a = .error f ↔ ∃ c, cfg.memCap = some c ∧ c ≤ a ∧ f = .resourceExhausted a := by
  unfold checkCap
  cases cfg.memCap with
  | none => simp
  | some c =>
    by_cases h : c ≤ a
    · simp [h, eq_comm]
    · simp [h]

/-- A resolved read parameter carries the value the mode table gives. -/
theorem readsAs_of_resolveRead {x : Engine} {k : Nat} {o : Operand} {p : ReadParam} (h : resolveRead x k o = .ok p) :
    ReadsAs x o p.val := by
  obtain ⟨m, raw⟩ := o
  cases m with
  | immediate => simp only [resolveRead] at h; cases h; exact .inl ⟨rfl, rfl⟩
  | unassigned d => simp [resolveRead] at h
  | position =>
    simp only [resolveRead] at h
    split at h <;> cases h
    rename_i a ha
    exact .inr ⟨a, by simpa [formedAddress] using checkAddress_ok.1 ha, rfl⟩
  | relative =>
    simp only [resolveRead] at h
    split at h <;> cases h
    rename_i a ha
    exact .inr ⟨a, by simpa [formedAddress] using checkAddress_ok.1 ha, rfl⟩

/-- An operand that the mode table gives a value resolves to that value, in every slot. -/
theorem resolveRead_of_readsAs {x : Engine} {o : Operand} {v : I64} (k : Nat) (h : ReadsAs x o v) :
    ∃ p, resolveRead x k o = .ok p ∧ p.val = v := by
  obtain ⟨m, raw⟩ := o
  cases m with
  | immediate => simpa [ReadsAs, formedAddress, resolveRead, ReadParam.val, eq_comm] using h
  | unassigned d => simp [ReadsAs, formedAddress] at h
  | position =>
    obtain ⟨a, ha, rfl⟩ : ∃ a : Nat, raw.val = a ∧ v = memRead x.mem a := by simpa [ReadsAs, formedAddress] using h
    simp [resolveRead, checkAddress_ok.2 ha, ReadParam.val]
  | relative =>
    obtain ⟨a, ha, rfl⟩ : ∃ a : Nat, x.rb.val + raw.val = a ∧ v = memRead x.mem a := by
      simpa [ReadsAs, formedAddress] using h
    simp [resolveRead, checkAddress_ok.2 ha, ReadParam.val]

theorem writesTo_of_resolveWrite {cfg : Config} {x : Engine} {k : Nat} {o : Operand} {w : WriteParam}
    (h : resolveWrite cfg x k o = .ok w) : WritesTo cfg x o w.addr := by
  obtain ⟨m, raw⟩ := o
  cases m with
  | immediate => simp [resolveWrite] at h
  | unassigned d => simp [resolveWrite] at h
  | position =>
    simp only [resolveWrite] at h
    split at h
    · cases h
    · rename_i a ha
      split at h <;> cases h
      rename_i b hb
      obtain ⟨rfl, hc⟩ := checkCap_ok.1 hb
      exact ⟨by simpa [formedAddress, WriteParam.addr] using checkAddress_ok.1 ha, hc⟩
  | relative =>
    simp only [resolveWrite] at h
    split at h
    · cases h
    · rename_i a ha
      split at h <;> cases h
      rename_i b hb
      obtain ⟨rfl, hc⟩ := checkCap_ok.1 hb
      exact ⟨by simpa [formedAddress, WriteParam.addr] using checkAddress_ok.1 ha, hc⟩

theorem resolveWrite_of_writesTo {cfg : Config} {x : Engine} {o : Operand} {a : Nat} (k : Nat) (h : WritesTo cfg x o a) :
    ∃ w, resolveWrite cfg x k o = .ok w ∧ w.addr = a := by
  obtain ⟨m, raw⟩ := o
  obtain ⟨hf, hc⟩ := h
  cases m with
  | immediate => simp [formedAddress] at hf
  | unassigned d => simp [formedAddress] at hf
  | position =>
    have ha : raw.val = a := by simpa [formedAddress] using hf
    simp [resolveWrite, checkAddress_ok.2 ha, checkCap_ok.2 ⟨rfl, hc⟩, WriteParam.addr]
  | relative =>
    have ha : x.rb.val + raw.val = a := by simpa [formedAddress] using hf
    simp [resolveWrite, checkAddress_ok.2 ha, checkCap_ok.2 ⟨rfl, hc⟩, WriteParam.addr]

/-- The fault a read slot reports is the one the order of checks gives. -/
theorem resolveRead_error {cfg : Config} {x : Engine} {k : Nat} {o : Operand} {f : FaultCause} :
    resolveRead x k o = .error f ↔ SlotFault cfg x k (.read, o) f := by
  obtain ⟨m, raw⟩ := o
  cases m with
  | immediate => simp [resolveRead, SlotFault, formedAddress]
  | unassigned d => simp [resolveRead, SlotFault, formedAddress, digitOfMode, eq_comm]
  | position =>
    cases hc : checkAddress k raw.val with
    | error g =>
      have := checkAddress_error.1 hc
      simp [resolveRead, SlotFault, formedAddress, hc, this, eq_comm]
    | ok a =>
      have := checkAddress_ok.1 hc
      simp only [resolveRead, hc, SlotFault, formedAddress]
      simp
      omega
  | relative =>
    cases hc : checkAddress k (x.rb.val + raw.val) with
    | error g =>
      have := checkAddress_error.1 hc
      simp [resolveRead, SlotFault, formedAddress, hc, this, eq_comm]
    | ok a =>
      have := checkAddress_ok.1 hc
      simp only [resolveRead, hc, SlotFault, formedAddress]
      simp
      omega

/-- The fault a write slot reports is the one the order of checks gives. -/
theorem resolveWrite_error {cfg : Config} {x : Engine} {k : Nat} {o : Operand} {f : FaultCause} :
    resolveWrite cfg x k o = .error f ↔ SlotFault cfg x k (.write, o) f := by
  have key : ∀ a : Int,
      ((match checkAddress k a with
        | .error g => Except.error g
        | .ok n => match checkCap cfg n with | .error g => .error g | .ok m => .ok m) = (.error f : Except FaultCause Nat)) ↔
      (a < 0 ∧ f = .negativeAddress k a) ∨
        ∃ n : Nat, ∃ c, a = (n : Int) ∧ cfg.memCap = some c ∧ c ≤ n ∧ f = .resourceExhausted n := by
    intro a
    cases hc : checkAddress k a with
    | error g =>
      obtain ⟨hneg, rfl⟩ := checkAddress_error.1 hc
      have : ∀ n : Nat, a ≠ (n : Int) := by omega
      simp [hneg, this, eq_comm]
    | ok n =>
      have hn := checkAddress_ok.1 hc
      subst hn
      have hneg : ¬ (n : Int) < 0 := by omega
      cases hd : checkCap cfg n with
      | error g =>
        obtain ⟨c, h1, h2, rfl⟩ := checkCap_error.1 hd
        simp [hd, hneg, h1, h2, eq_comm]
      | ok m =>
        have hcap := (checkCap_ok.1 hd).2
        simp only [hd, hneg, reduceCtorEq, false_and, false_or, false_iff]
        rintro ⟨n', c, hn, hc, hle, -⟩
        have := hcap c hc
        omega
  obtain ⟨m, raw⟩ := o
  cases m with
  | immediate => simp [resolveWrite, SlotFault, formedAddress, eq_comm]
  | unassigned d => simp [resolveWrite, SlotFault, formedAddress, digitOfMode, eq_comm]
  | position =>
    have := key raw.val
    simp only [resolveWrite, SlotFault, formedAddress]
    simp only [reduceCtorEq, false_and, exists_const, false_or, and_false, true_and, Option.some.injEq, exists_and_left,
      exists_eq_left'] at this ⊢
    rw [← this]
    cases checkAddress k raw.val with
    | error g => simp
    | ok n => cases hd : checkCap cfg n <;> simp [hd]
  | relative =>
    have := key (x.rb.val + raw.val)
    simp only [resolveWrite, SlotFault, formedAddress]
    simp only [reduceCtorEq, false_and, exists_const, false_or, and_false, true_and, Option.some.injEq, exists_and_left,
      exists_eq_left'] at this ⊢
    rw [← this]
    cases checkAddress k (x.rb.val + raw.val) with
    | error g => simp
    | ok n => cases hd : checkCap cfg n <;> simp [hd]

/-! ### The overflow rule -/

theorem ofInt?_some {r : Int} {v : I64} : I64.ofInt? r = some v ↔ v.val = r := by
  unfold I64.ofInt?
  split
  · simp only [Option.some.injEq]
    exact ⟨fun h => h ▸ rfl, fun h => I64.ext h.symm⟩
  · rename_i h
    simp only [reduceCtorEq, false_iff]
    intro hv
    exact h ⟨hv ▸ v.lo, hv ▸ v.hi⟩

theorem ofInt?_none {r : Int} : I64.ofInt? r = none ↔ ¬ I64.InRange r := by
  unfold I64.ofInt?
  split <;> simp_all

/-- A result that is a cell value is itself, under both policies. -/
theorem fit_inRange {cfg : Config} {r : Int} {v : I64} (h : v.val = r) : fit cfg r = .ok v := by
  simp [fit, ofInt?_some.2 h]

theorem fit_fault {cfg : Config} {r : Int} (h : ¬ I64.InRange r) (hp : cfg.overflowPolicy = .fault) :
    fit cfg r = .error (.arithmeticOverflow r) := by
  simp [fit, ofInt?_none.2 h, hp]

theorem fit_wrap {cfg : Config} {r : Int} (h : ¬ I64.InRange r) (hp : cfg.overflowPolicy = .wrap) :
    fit cfg r = .ok (I64.wrap r) := by
  simp [fit, ofInt?_none.2 h, hp]

end Sys2Proof.Machine
end

