-- ==== Sys2Proof/Laws/Exec.lean ====
section
/-! SUPPORT. What each shared operation and each meaning can do, said once: every statement about a step follows from these
cases without unfolding a meaning again. -/

namespace Sys2Proof.Machine

/-! ### The end of a run -/

@[simp] theorem releaseEnds_cfg (x : Engine) (s : State) : (releaseEnds x s).cfg = s.cfg := by
  unfold releaseEnds; cases x.run <;> cases x.inp <;> cases x.outp <;> rfl

@[simp] theorem releaseEnds_self (x : Engine) (s : State) : (releaseEnds x s).self = s.self := by
  unfold releaseEnds; cases x.run <;> cases x.inp <;> cases x.outp <;> rfl

@[simp] theorem releaseEnds_eng (x : Engine) (s : State) : (releaseEnds x s).eng = s.eng := by
  unfold releaseEnds; cases x.run <;> cases x.inp <;> cases x.outp <;> rfl

@[simp] theorem releaseEnds_others (x : Engine) (s : State) : (releaseEnds x s).others = s.others := by
  unfold releaseEnds; cases x.run <;> cases x.inp <;> cases x.outp <;> rfl

@[simp] theorem releaseEnds_nextChan (x : Engine) (s : State) : (releaseEnds x s).nextChan = s.nextChan := by
  unfold releaseEnds; cases x.run <;> cases x.inp <;> cases x.outp <;> rfl

@[simp] theorem releaseEnds_agenda (x : Engine) (s : State) : (releaseEnds x s).agenda = s.agenda := by
  unfold releaseEnds; cases x.run <;> cases x.inp <;> cases x.outp <;> rfl

@[simp] theorem releaseEnds_choices (x : Engine) (s : State) : (releaseEnds x s).choices = s.choices := by
  unfold releaseEnds; cases x.run <;> cases x.inp <;> cases x.outp <;> rfl

@[simp] theorem releaseEnds_replies (x : Engine) (s : State) : (releaseEnds x s).replies = s.replies := by
  unfold releaseEnds; cases x.run <;> cases x.inp <;> cases x.outp <;> rfl

/-- An engine that was not spawned releases nothing. -/
theorem releaseEnds_of_ne {x : Engine} (h : x.run ≠ .spawned) (s : State) : releaseEnds x s = s := by
  unfold releaseEnds
  cases hr : x.run <;> simp_all

@[simp] theorem endedEngine_mem (st : Status) (x : Engine) : (endedEngine st x).mem = x.mem := by
  unfold endedEngine; cases x.run <;> rfl

@[simp] theorem endedEngine_ip (st : Status) (x : Engine) : (endedEngine st x).ip = x.ip := by
  unfold endedEngine; cases x.run <;> rfl

@[simp] theorem endedEngine_rb (st : Status) (x : Engine) : (endedEngine st x).rb = x.rb := by
  unfold endedEngine; cases x.run <;> rfl

@[simp] theorem endedEngine_status (st : Status) (x : Engine) : (endedEngine st x).status = st := by
  unfold endedEngine; cases x.run <;> rfl

@[simp] theorem endedEngine_run (st : Status) (x : Engine) : (endedEngine st x).run = .idle := by
  unfold endedEngine; cases h : x.run <;> rfl

@[simp] theorem endRun_cfg (st : Status) (s : State) : (endRun st s).cfg = s.cfg := by simp [endRun]

@[simp] theorem endRun_self (st : Status) (s : State) : (endRun st s).self = s.self := by simp [endRun]

@[simp] theorem endRun_eng (st : Status) (s : State) : (endRun st s).eng = endedEngine st s.eng := by simp [endRun]

@[simp] theorem endRun_others (st : Status) (s : State) : (endRun st s).others = s.others := by simp [endRun]

@[simp] theorem endRun_nextChan (st : Status) (s : State) : (endRun st s).nextChan = s.nextChan := by simp [endRun]

@[simp] theorem endRun_agenda (st : Status) (s : State) : (endRun st s).agenda = s.agenda := by simp [endRun]

@[simp] theorem endRun_choices (st : Status) (s : State) : (endRun st s).choices = s.choices := by simp [endRun]

@[simp] theorem endRun_chans (st : Status) (s : State) : (endRun st s).chans = (releaseEnds s.eng s).chans := by
  simp [endRun]

theorem endRun_replies (st : Status) (s : State) :
    (endRun st s).replies = s.replies ++ endReply st s.self s.eng := by simp [endRun]

/-! ### Channels -/

theorem getChannel_setChannel_same (c : ChannelId) (ch : Channel) (s : State) : getChannel (setChannel c ch s) c = ch :=
  sparseGet_set_same _ _ _ _

theorem getChannel_setChannel_ne {c d : ChannelId} (ch : Channel) (s : State) (h : d ≠ c) :
    getChannel (setChannel c ch s) d = getChannel s d :=
  sparseGet_set_ne _ _ _ h

/-- A channel that is created is new. -/
theorem getChannel_createChannel_new (s : State) : getChannel (createChannel s) s.nextChan = Channel.new := by
  simp [getChannel, createChannel, sparseGet_set_same]

/-- Creating a channel changes no other. -/
theorem getChannel_createChannel_ne {s : State} {c : ChannelId} (h : c ≠ s.nextChan) :
    getChannel (createChannel s) c = getChannel s c := by
  simp [getChannel, createChannel, sparseGet_set_ne _ _ _ h]

/-- What is left of a channel's queue when the ends of an engine are released: all of it. -/
theorem releaseEnds_queue (x : Engine) (s : State) (c : ChannelId) :
    (getChannel (releaseEnds x s) c).queue = (getChannel s c).queue := by
  have hr : ∀ (t : State) (d : ChannelId), (getChannel (dropReceiver d t) c).queue = (getChannel t c).queue := by
    intro t d
    by_cases h : c = d
    · subst h; simp [dropReceiver, getChannel_setChannel_same]
    · simp [dropReceiver, getChannel_setChannel_ne _ _ h]
  have hs : ∀ (t : State) (d : ChannelId), (getChannel (dropSender d t) c).queue = (getChannel t c).queue := by
    intro t d
    by_cases h : c = d
    · subst h; simp [dropSender, getChannel_setChannel_same]
    · simp [dropSender, getChannel_setChannel_ne _ _ h]
  unfold releaseEnds
  cases x.run <;> cases x.inp <;> cases x.outp <;> simp [hr, hs]

/-! ### What each meaning can do -/

theorem resolveTwo_ok {x : Engine} {a b : Operand} {p q : ReadParam} (h : resolveTwo x a b = .ok (p, q)) :
    ReadsAs x a p.val ∧ ReadsAs x b q.val := by
  simp only [resolveTwo] at h
  split at h
  · cases h
  · rename_i p' hp
    split at h
    · cases h
    · rename_i q' hq
      cases h
      exact ⟨readsAs_of_resolveRead hp, readsAs_of_resolveRead hq⟩

theorem resolveTwo_of_readsAs {x : Engine} {a b : Operand} {u v : I64} (ha : ReadsAs x a u) (hb : ReadsAs x b v) :
    ∃ p q, resolveTwo x a b = .ok (p, q) ∧ p.val = u ∧ q.val = v := by
  obtain ⟨p, hp, rfl⟩ := resolveRead_of_readsAs 0 ha
  obtain ⟨q, hq, rfl⟩ := resolveRead_of_readsAs 1 hb
  exact ⟨p, q, by simp [resolveTwo, hp, hq], rfl, rfl⟩

theorem resolveThree_of_operands {cfg : Config} {x : Engine} {a b out : Operand} {u v : I64} {d : Nat}
    (ha : ReadsAs x a u) (hb : ReadsAs x b v) (hd : WritesTo cfg x out d) :
    ∃ p q w, resolveThree cfg x a b out = .ok (p, q, w) ∧ p.val = u ∧ q.val = v ∧ w.addr = d := by
  obtain ⟨p, q, h, rfl, rfl⟩ := resolveTwo_of_readsAs ha hb
  obtain ⟨w, hw, rfl⟩ := resolveWrite_of_writesTo 2 hd
  exact ⟨p, q, w, by simp [resolveThree, h, hw], rfl, rfl, rfl⟩

/-- An F3 instruction whose operands resolve writes what it computes and advances by 4, or raises what the computation
raises. -/
theorem computeAndStore_of_operands {compute : I64 → I64 → Except FaultCause I64} {a b out : Operand} {s : State}
    {u v : I64} {d : Nat} (ha : ReadsAs s.eng a u) (hb : ReadsAs s.eng b v) (hd : WritesTo s.cfg s.eng out d) :
    computeAndStore compute a b out s =
      match compute u v with
      | .error f => .next (raiseFault f s)
      | .ok r    => .next (advance 4 (storeCell d r s)) := by
  obtain ⟨p, q, w, h, rfl, rfl, rfl⟩ := resolveThree_of_operands ha hb hd
  simp only [computeAndStore, h] <;> (cases compute p.val q.val <;> rfl)

/-- An F3 instruction raises a fault, or writes one cell and advances by 4. -/
theorem computeAndStore_cases {compute : I64 → I64 → Except FaultCause I64} {a b out : Operand} {s t : State}
    (h : computeAndStore compute a b out s = .next t) :
    (∃ f, t = raiseFault f s) ∨
      ∃ u v d r, ReadsAs s.eng a u ∧ ReadsAs s.eng b v ∧ WritesTo s.cfg s.eng out d ∧ compute u v = .ok r ∧
        t = advance 4 (storeCell d r s) := by
  simp only [computeAndStore] at h
  split at h
  · cases h
    exact .inl ⟨_, rfl⟩
  · rename_i p q w hres
    simp only [resolveThree] at hres
    split at hres
    · cases hres
    · rename_i p' q' h2
      split at hres
      · cases hres
      · rename_i w' hw
        cases hres
        obtain ⟨ha, hb⟩ := resolveTwo_ok h2
        split at h
        · cases h
          exact .inl ⟨_, rfl⟩
        · rename_i r hr
          cases h
          exact .inr ⟨_, _, _, r, ha, hb, writesTo_of_resolveWrite hw, hr, rfl⟩

/-- A jump raises a fault, goes to a target that is not negative, or advances by 3. -/
theorem jumpWhen_cases {taken : I64 → Bool} {test target : Operand} {s t : State}
    (h : jumpWhen taken test target s = .next t) :
    (∃ f, t = raiseFault f s) ∨
      (∃ u v, ∃ n : Nat, ReadsAs s.eng test u ∧ ReadsAs s.eng target v ∧ taken u = true ∧ v.val = n ∧ t = jumpTo n s) ∨
      ∃ u v, ReadsAs s.eng test u ∧ ReadsAs s.eng target v ∧ taken u = false ∧ t = advance 3 s := by
  simp only [jumpWhen] at h
  split at h
  · cases h
    exact .inl ⟨_, rfl⟩
  · rename_i p q hres
    obtain ⟨hp, hq⟩ := resolveTwo_ok hres
    split at h
    · rename_i htaken
      split at h
      · cases h
        exact .inl ⟨_, rfl⟩
      · rename_i n hn
        cases h
        exact .inr (.inl ⟨_, _, n, hp, hq, htaken, checkAddress_ok.1 hn, rfl⟩)
    · rename_i htaken
      cases h
      exact .inr (.inr ⟨_, _, hp, hq, by simpa using htaken, rfl⟩)

/-- Input raises a fault, holds, or takes the head of its queue into one cell and advances by 2. -/
theorem execInput_cases {out : Operand} {s t : State} (h : execInput out s = .next t) :
    (∃ f, t = raiseFault f s) ∨
      (∃ c, s.eng.inp = some c ∧ (getChannel s c).queue = [] ∧ (getChannel s c).senderAlive = true ∧ t = s) ∨
      ∃ c v rest d, s.eng.inp = some c ∧ (getChannel s c).queue = v :: rest ∧ WritesTo s.cfg s.eng out d ∧
        t = advance 2 (storeCell d v (setQueue c rest s)) := by
  simp only [execInput] at h
  split at h
  · cases h
    exact .inl ⟨_, rfl⟩
  · rename_i w hw
    split at h
    · cases h
      exact .inl ⟨_, rfl⟩
    · rename_i c hc
      split at h
      · rename_i v rest hq
        cases h
        exact .inr (.inr ⟨c, v, rest, _, hc, hq, writesTo_of_resolveWrite hw, rfl⟩)
      · rename_i hq
        split at h
        · rename_i hs
          cases h
          exact .inr (.inl ⟨c, hc, hq, hs, rfl⟩)
        · cases h
          exact .inl ⟨_, rfl⟩

/-- Output raises a fault, or appends one value to its queue and advances by 2. -/
theorem execOutput_cases {a : Operand} {s t : State} (h : execOutput a s = .next t) :
    (∃ f, t = raiseFault f s) ∨
      ∃ c v, s.eng.outp = some c ∧ (getChannel s c).receiverAlive = true ∧ ReadsAs s.eng a v ∧
        t = advance 2 (setQueue c ((getChannel s c).queue ++ [v]) s) := by
  simp only [execOutput] at h
  split at h
  · cases h
    exact .inl ⟨_, rfl⟩
  · rename_i p hp
    split at h
    · cases h
      exact .inl ⟨_, rfl⟩
    · rename_i c hc
      split at h
      · rename_i hr
        cases h
        exact .inr ⟨c, _, hc, hr, readsAs_of_resolveRead hp, rfl⟩
      · cases h
        exact .inl ⟨_, rfl⟩

/-- RelativeBaseOffset raises a fault, or changes `rb` and advances by 2. -/
theorem execRelativeBaseOffset_cases {a : Operand} {s t : State} (h : execRelativeBaseOffset a s = .next t) :
    (∃ f, t = raiseFault f s) ∨
      ∃ v r, ReadsAs s.eng a v ∧ fit s.cfg (s.eng.rb.val + v.val) = .ok r ∧ t = advance 2 (setBase r s) := by
  simp only [execRelativeBaseOffset] at h
  split at h
  · cases h
    exact .inl ⟨_, rfl⟩
  · rename_i p hp
    split at h
    · cases h
      exact .inl ⟨_, rfl⟩
    · rename_i r hr
      cases h
      exact .inr ⟨_, r, readsAs_of_resolveRead hp, hr, rfl⟩

/-- The shapes of a completed instruction, whatever it computes. -/
inductive Effect (s : State) : Instr → State → Prop where
  | fault (i : Instr) (f : FaultCause) : Effect s i (raiseFault f s)
  | halt : Effect s .halt (endRun .halted s)
  | hold (out : Operand) : Effect s (.input out) s
  | store (i : Instr) (hi : i.length = 4) (d : Nat) (r : I64) : Effect s i (advance 4 (storeCell d r s))
  | receive (out : Operand) (c : ChannelId) (v : I64) (rest : List I64) (d : Nat) (hc : s.eng.inp = some c)
      (hq : (getChannel s c).queue = v :: rest) :
      Effect s (.input out) (advance 2 (storeCell d v (setQueue c rest s)))
  | send (a : Operand) (c : ChannelId) (v : I64) (hc : s.eng.outp = some c) :
      Effect s (.output a) (advance 2 (setQueue c ((getChannel s c).queue ++ [v]) s))
  | jump (i : Instr) (hi : i.length = 3) (n : Nat) : Effect s i (jumpTo n s)
  | fallThrough (i : Instr) (hi : i.length = 3) : Effect s i (advance 3 s)
  | base (a : Operand) (r : I64) : Effect s (.relativeBaseOffset a) (advance 2 (setBase r s))

theorem effect_of_computeAndStore {compute : I64 → I64 → Except FaultCause I64} {a b out : Operand} {i : Instr} {s t : State}
    (hi : i.length = 4) (h : computeAndStore compute a b out s = .next t) : Effect s i t := by
  rcases computeAndStore_cases h with ⟨f, rfl⟩ | ⟨_, _, d, r, _, _, _, _, rfl⟩
  · exact .fault i f
  · exact .store i hi d r

theorem effect_of_jumpWhen {taken : I64 → Bool} {test target : Operand} {i : Instr} {s t : State} (hi : i.length = 3)
    (h : jumpWhen taken test target s = .next t) : Effect s i t := by
  rcases jumpWhen_cases h with ⟨f, rfl⟩ | ⟨_, _, n, _, _, _, _, rfl⟩ | ⟨_, _, _, _, _, rfl⟩
  · exact .fault i f
  · exact .jump i hi n
  · exact .fallThrough i hi

/-- Every next state of an instruction has one of these shapes. -/
theorem effect_of_exec {i : Instr} {s t : State} (h : exec i s = .next t) : Effect s i t := by
  cases i with
  | add a b out =>
    simp only [exec, execAdd] at h
    exact effect_of_computeAndStore rfl h
  | mul a b out =>
    simp only [exec, execMul] at h
    exact effect_of_computeAndStore rfl h
  | lessThan a b out =>
    simp only [exec, execLessThan] at h
    exact effect_of_computeAndStore rfl h
  | equals a b out =>
    simp only [exec, execEquals] at h
    exact effect_of_computeAndStore rfl h
  | input out =>
    simp only [exec] at h
    rcases execInput_cases h with ⟨f, rfl⟩ | ⟨_, _, _, _, rfl⟩ | ⟨c, v, rest, d, hc, hq, _, rfl⟩
    · exact .fault _ f
    · exact .hold out
    · exact .receive out c v rest d hc hq
  | output a =>
    simp only [exec] at h
    rcases execOutput_cases h with ⟨f, rfl⟩ | ⟨c, v, hc, _, _, rfl⟩
    · exact .fault _ f
    · exact .send a c v hc
  | jumpIfTrue test target =>
    simp only [exec, execJumpIfTrue] at h
    exact effect_of_jumpWhen rfl h
  | jumpIfFalse test target =>
    simp only [exec, execJumpIfFalse] at h
    exact effect_of_jumpWhen rfl h
  | relativeBaseOffset a =>
    simp only [exec] at h
    rcases execRelativeBaseOffset_cases h with ⟨f, rfl⟩ | ⟨_, r, _, _, rfl⟩
    · exact .fault _ f
    · exact .base a r
  | halt =>
    cases h
    exact .halt

end Sys2Proof.Machine
end

