-- ==== Sys2Proof/Laws/PerInstr.lean ====
section
/-! SUPPORT. One fact about every instruction as syntax: its encoding has as many cells as its length says
(30_encoding.md R48, R61). -/

namespace Sys2Proof.Laws

/-- The encoding of `i` occupies `i.length` cells. -/
def EncodedLength.Statement (i : Instr) : Prop := (encode i).length = i.length

theorem EncodedLength.add (a b out : Operand) : EncodedLength.Statement (.add a b out) := rfl

theorem EncodedLength.mul (a b out : Operand) : EncodedLength.Statement (.mul a b out) := rfl

theorem EncodedLength.input (out : Operand) : EncodedLength.Statement (.input out) := rfl

theorem EncodedLength.output (a : Operand) : EncodedLength.Statement (.output a) := rfl

theorem EncodedLength.jumpIfTrue (test target : Operand) : EncodedLength.Statement (.jumpIfTrue test target) := rfl

theorem EncodedLength.jumpIfFalse (test target : Operand) : EncodedLength.Statement (.jumpIfFalse test target) := rfl

theorem EncodedLength.lessThan (a b out : Operand) : EncodedLength.Statement (.lessThan a b out) := rfl

theorem EncodedLength.equals (a b out : Operand) : EncodedLength.Statement (.equals a b out) := rfl

theorem EncodedLength.relativeBaseOffset (a : Operand) : EncodedLength.Statement (.relativeBaseOffset a) := rfl

theorem EncodedLength.halt : EncodedLength.Statement .halt := rfl

end Sys2Proof.Laws
end

