-- ==== Sys2Proof/Laws/System.lean ====
section
/-! SUPPORT. What a fault leaves, what a step of an engine and a step of the system can be, and what each host action can
do: one inversion lemma each, so that no claim about every step unfolds them. -/

namespace Sys2Proof.Machine

/-! ### Faults and stores -/

/-- The ends of a channel after a spawned engine has dropped the two it held. -/
theorem getChannel_releaseEnds_alive {x : Engine} (hx : x.run = .spawned) (s : State) (c : ChannelId) :
    (getChannel (releaseEnds x s) c).receiverAlive = (if x.inp = some c then false else (getChannel s c).receiverAlive) ∧
      (getChannel (releaseEnds x s) c).senderAlive = (if x.outp = some c then false else (getChannel s c).senderAlive) := by
  have recv : ∀ (d : ChannelId) (u : State),
      (getChannel (dropReceiver d u) c).receiverAlive = (if some d = some c then false else (getChannel u c).receiverAlive) ∧
        (getChannel (dropReceiver d u) c).senderAlive = (getChannel u c).senderAlive := by
    intro d u
    by_cases h : d = c
    · subst h; simp [dropReceiver, getChannel_setChannel_same]
    · simp [dropReceiver, getChannel_setChannel_ne _ _ (Ne.symm h), h]
  have send : ∀ (d : ChannelId) (u : State),
      (getChannel (dropSender d u) c).senderAlive = (if some d = some c then false else (getChannel u c).senderAlive) ∧
        (getChannel (dropSender d u) c).receiverAlive = (getChannel u c).receiverAlive := by
    intro d u
    by_cases h : d = c
    · subst h; simp [dropSender, getChannel_setChannel_same]
    · simp [dropSender, getChannel_setChannel_ne _ _ (Ne.symm h), h]
  simp only [releaseEnds, hx]
  cases x.inp with
  | none =>
    cases x.outp with
    | none => simp
    | some e => simp [(send e s).1, (send e s).2]
  | some d =>
    cases x.outp with
    | none => simp [(recv d s).1, (recv d s).2]
    | some e => simp [(send e _).1, (send e _).2, (recv d s).1, (recv d s).2]

/-- All that happens when the engine that has the turn ends. -/
theorem endsRun_endRun (st : Status) (s : State) : EndsRun s (endRun st s) st (runError st) := by
  refine ⟨by simp, by simp [SameRegistersAndMemory], by simp, fun c => releaseEnds_queue s.eng s c, by simp, by simp, by simp,
    by simp, by simp, by simp, ?_, fun h => ⟨?_, ?_, ?_⟩, fun h => ⟨?_, ?_, fun c => getChannel_releaseEnds_alive h s c⟩⟩
  · rw [endRun_replies]
    cases h : s.eng.run <;> simp [endReply, h]
  · rw [endRun_chans, releaseEnds_of_ne h]
  · rw [endRun_eng]
    cases hr : s.eng.run <;> simp_all [endedEngine]
  · rw [endRun_eng]
    cases hr : s.eng.run <;> simp_all [endedEngine]
  · simp [endedEngine, h]
  · simp [endedEngine, h]

theorem takesFault_raiseFault (f : FaultCause) (s : State) : TakesFault s (raiseFault f s) f :=
  endsRun_endRun (.faulted (faultRecord f s.eng)) s

theorem storedAt_memWrite {m : Memory} (h : m.wf) (a : Nat) (v : I64) : StoredAt m (memWrite m a v) a v :=
  ⟨memRead_memWrite_same _ _ _, rfl, fun _ hb => memRead_memWrite_ne h _ hb⟩

/-- A jump whose two operands read as `u` and `v`. -/
theorem jumpWhen_of_operands {taken : I64 → Bool} {test target : Operand} {s : State} {u v : I64}
    (ha : ReadsAs s.eng test u) (hb : ReadsAs s.eng target v) :
    jumpWhen taken test target s =
      if taken u then
        match checkAddress 1 v.val with
        | .error f => .next (raiseFault f s)
        | .ok t    => .next (jumpTo t s)
      else .next (advance 3 s) := by
  obtain ⟨p, q, h, rfl, rfl⟩ := resolveTwo_of_readsAs ha hb
  simp only [jumpWhen, h] <;> rfl

/-- A channel that is neither end of `x` is not touched when `x` drops its ends. -/
theorem getChannel_releaseEnds_ne {x : Engine} {s : State} {c : ChannelId} (hi : x.inp ≠ some c) (ho : x.outp ≠ some c) :
    getChannel (releaseEnds x s) c = getChannel s c := by
  have ne : ∀ (d : ChannelId) ch (u : State), d ≠ c → getChannel (setChannel d ch u) c = getChannel u c :=
    fun d ch u h => getChannel_setChannel_ne ch u (Ne.symm h)
  unfold releaseEnds
  cases x.run with
  | idle => rfl
  | inline => rfl
  | spawned =>
    cases h1 : x.inp with
    | none =>
      cases h2 : x.outp with
      | none => rfl
      | some e => exact ne _ _ _ (by rintro rfl; exact ho h2)
    | some d =>
      have hd : d ≠ c := by rintro rfl; exact hi h1
      cases h2 : x.outp with
      | none => exact ne _ _ _ hd
      | some e => exact (ne _ _ _ (by rintro rfl; exact ho h2)).trans (ne _ _ _ hd)

/-! ### One step of an engine -/

/-- A step of an engine ends it with InvalidOpcode or executes the instruction it fetched. -/
theorem engineTurn_cases {s t : State} (h : engineTurn s = .next t) :
    s.eng.status = .running ∧ s.eng.run ≠ .idle ∧
      (t = raiseFault (.invalidOpcode (memRead s.eng.mem s.eng.ip)) s ∨ ∃ i, fetch s.eng = .ok i ∧ exec i s = .next t) := by
  unfold engineTurn at h
  split at h
  · cases h
  · cases h
  · rename_i hs
    split at h
    · cases h
    · rename_i hr
      refine ⟨hs, hr, ?_⟩
      split at h
      · rename_i e he
        cases h
        left
        have hw : decodeErrorWord e = memRead s.eng.mem s.eng.ip := by
          unfold fetch decode at he
          split at he
          · cases he; rfl
          · split at he <;> cases he
            rfl
        rw [hw]
      · rename_i i hi
        exact .inr ⟨i, hi, h⟩

/-- A step of an engine has one of the shapes of `Effect`. -/
theorem engineTurn_effect {s t : State} (h : engineTurn s = .next t) :
    s.eng.status = .running ∧ s.eng.run ≠ .idle ∧ ∃ i, Effect s i t := by
  obtain ⟨a, b, rfl | ⟨i, -, hi⟩⟩ := engineTurn_cases h
  · exact ⟨a, b, .halt, .fault _ _⟩
  · exact ⟨a, b, i, effect_of_exec hi⟩

/-- No step of an engine touches another engine, the names of channels, the agenda or the parameters. -/
theorem effect_frame {s t : State} {i : Instr} (h : Effect s i t) :
    t.self = s.self ∧ t.others = s.others ∧ t.nextChan = s.nextChan ∧ t.agenda = s.agenda ∧ t.choices = s.choices ∧
      t.cfg = s.cfg := by
  cases h <;> simp [raiseFault]

/-- A Running engine that a step leaves Faulted took a fault. -/
theorem effect_faulted {s t : State} {i : Instr} {f : FaultRecord} (h : Effect s i t) (hs : s.eng.status = .running)
    (hf : t.eng.status = .faulted f) : ∃ c, t = raiseFault c s := by
  cases h <;> first | exact ⟨_, rfl⟩ | simp_all

theorem effect_extent {s t : State} {i : Instr} (h : Effect s i t) : s.eng.mem.extent ≤ t.eng.mem.extent := by
  cases h <;> simp [raiseFault, memWrite_extent]

/-- A step leaves memory as it is or writes one cell. -/
theorem effect_mem {s t : State} {i : Instr} (h : Effect s i t) :
    t.eng.mem = s.eng.mem ∨ ∃ a v, t.eng.mem = memWrite s.eng.mem a v := by
  cases h <;> simp [raiseFault]

theorem findEngine_of_others {s t : State} (h1 : t.self = s.self) (h2 : t.others = s.others) {f : EngineId}
    (hf : f ≠ s.self) : findEngine t f = findEngine s f := by
  simp [findEngine, h1, h2, hf]

theorem effect_findEngine {s t : State} {i : Instr} (h : Effect s i t) {e : EngineId} (he : e ≠ s.self) :
    findEngine t e = findEngine s e := by
  obtain ⟨h1, h2, -⟩ := effect_frame h
  exact findEngine_of_others h1 h2 he

theorem effect_mem_allEngines {s t : State} {i : Instr} (h : Effect s i t) {y : Engine} (hy : y ∈ allEngines t) :
    y = t.eng ∨ y ∈ allEngines s := by
  obtain ⟨h1, h2, -⟩ := effect_frame h
  simp only [allEngines, h2, List.mem_cons] at hy ⊢
  rcases hy with h | h
  · exact .inl h
  · exact .inr (.inr h)

/-! ### One step of the system -/

/-- The step of a named engine: there is none of that name, or it has a step of the shapes of `Effect`. -/
theorem turnOf_cases {e : EngineId} {s t : State} (h : turnOf e s = .next t) :
    t = s ∨ ∃ u i, selectEngine e s = some u ∧ Effect u i t ∧ u.eng.status = .running ∧ u.eng.run ≠ .idle := by
  unfold turnOf at h
  split at h
  · cases h
    exact .inl rfl
  · rename_i u hu
    obtain ⟨a, b, i, hi⟩ := engineTurn_effect h
    exact .inr ⟨u, i, hu, hi, a, b⟩

/-- A step of the system, which first takes its move off the agenda or notes a free choice: nothing more, the step of an
engine that was given the turn, or a host action. -/
theorem step_cases {s t : State} (h : step s = .next t) :
    (∃ r n, t = { s with agenda := r, choices := n }) ∨
    (∃ e r n u i, selectEngine e { s with agenda := r, choices := n } = some u ∧ Effect u i t ∧ u.eng.status = .running ∧
      u.eng.run ≠ .idle) ∨
    (∃ a r, s.agenda = .host a :: r ∧ t = hostAct a { s with agenda := r }) := by
  have self : ∀ r n, { s with agenda := r, choices := n } = s →
      selectEngine s.self { s with agenda := r, choices := n } = some s := by
    intro r n hs
    rw [hs]
    simp [selectEngine]
  unfold step systemStep at h
  split at h
  · rename_i ha
    have hs : { s with agenda := [], choices := s.choices } = s := by rw [← ha]
    unfold autonomousStep at h
    split at h
    · obtain ⟨a, b, i, hi⟩ := engineTurn_effect h
      exact .inr (.inl ⟨s.self, [], s.choices, s, i, self _ _ hs, hi, a, b⟩)
    · rename_i e _
      rcases turnOf_cases h with rfl | ⟨u, i, hu, hi, a, b⟩
      · exact .inl ⟨[], t.choices, hs.symm⟩
      · exact .inr (.inl ⟨e, [], s.choices, u, i, by rw [hs]; exact hu, hi, a, b⟩)
    · have hc : { s with agenda := [], choices := s.choices + 1 } = { s with choices := s.choices + 1 } := by rw [← ha]
      rcases turnOf_cases h with rfl | ⟨u, i, hu, hi, a, b⟩
      · exact .inl ⟨[], _, hc.symm⟩
      · exact .inr (.inl ⟨_, [], _, u, i, by rw [hc]; exact hu, hi, a, b⟩)
  · rename_i e r ha
    unfold scheduledTurn at h
    split at h
    · cases h
      exact .inl ⟨r, s.choices, rfl⟩
    · rename_i u hu
      split at h
      · rename_i v hv
        cases h
        obtain ⟨a, b, i, hi⟩ := engineTurn_effect hv
        exact .inr (.inl ⟨e, r, s.choices, u, i, hu, hi, a, b⟩)
      · cases h
        exact .inl ⟨r, s.choices, rfl⟩
      · cases h
  · rename_i a r ha
    cases h
    exact .inr (.inr ⟨a, r, ha, rfl⟩)

/-- A runnable engine is one that the spec's words let step. -/
theorem runnable_iff {x : Engine} : runnable x = true ↔ CanStep x := by
  simp [runnable, CanStep]

theorem mem_runnableNames {s : State} {e : EngineId} :
    e ∈ runnableNames s ↔ (e = s.self ∧ CanStep s.eng) ∨ ∃ x, (e, x) ∈ s.others ∧ CanStep x := by
  simp only [runnableNames, List.mem_map, List.mem_filter, List.mem_cons, runnable_iff]
  constructor
  · rintro ⟨p, ⟨rfl | hp, hc⟩, rfl⟩
    · exact .inl ⟨rfl, hc⟩
    · exact .inr ⟨p.2, hp, hc⟩
  · rintro (⟨rfl, hc⟩ | ⟨x, hx, hc⟩)
    · exact ⟨_, ⟨.inl rfl, hc⟩, rfl⟩
    · exact ⟨_, ⟨.inr hx, hc⟩, rfl⟩

/-- The names of the engines that can step, where every engine has one name. -/
theorem mem_runnableNames_iff {s : State} (hn : NamesCanonical s) {e : EngineId} :
    e ∈ runnableNames s ↔ ∃ x, findEngine s e = some x ∧ CanStep x := by
  rw [mem_runnableNames]
  constructor
  · rintro (⟨rfl, hc⟩ | ⟨x, hx, hc⟩)
    · exact ⟨_, findEngine_self s, hc⟩
    · exact ⟨x, by simp [findEngine, hn.2 _ hx, sparseGet?_of_mem hn.1 hx], hc⟩
  · rintro ⟨x, hx, hc⟩
    unfold findEngine at hx
    split at hx
    · rename_i he
      cases hx
      exact .inl ⟨he, hc⟩
    · exact .inr ⟨x, mem_of_sparseGet? hx, hc⟩

/-- The free choice falls on one of the names, whatever its value. -/
theorem chosenName_mem {n : Nat} {names : List EngineId} {first : EngineId} (h : names ≠ []) :
    chosenName n names first ∈ names := by
  have hl : 0 < names.length := List.length_pos_iff.2 h
  unfold chosenName
  rw [List.getD_eq_getElem _ _ (Nat.mod_lt _ hl)]
  exact List.getElem_mem _

theorem mem_allEngines_selectEngine {e : EngineId} {s t : State} {y : Engine} (h : selectEngine e s = some t)
    (hy : y ∈ allEngines t) : y ∈ allEngines s := by
  unfold selectEngine at h
  split at h
  · cases h
    exact hy
  · split at h
    · cases h
    · rename_i x hx
      cases h
      simp only [allEngines, List.mem_cons, List.mem_map] at hy ⊢
      rcases hy with rfl | ⟨p, hp, rfl⟩
      · exact .inr ⟨_, mem_of_sparseGet? hx, rfl⟩
      · rcases mem_sparsePut hp with rfl | hp
        · exact .inl rfl
        · exact .inr ⟨_, (mem_sparseErase.1 hp).1, rfl⟩

theorem mem_allEngines_of_findEngine {s : State} {e : EngineId} {x : Engine} (h : findEngine s e = some x) :
    x ∈ allEngines s := by
  unfold findEngine at h
  split at h
  · cases h
    simp [allEngines]
  · exact List.mem_cons_of_mem _ (List.mem_map.2 ⟨_, mem_of_sparseGet? h, rfl⟩)

/-! ### Host actions -/

/-- What a host action can do to a state that the host may act on. -/
inductive HostEffect (s : State) : HostAction → State → Prop where
  | answer (a : HostAction) (r : Reply) : HostEffect s a (reply r s)
  | load (a : HostAction) (e : EngineId) (image : List I64) (x : Engine)
      (ha : a = .load e image ∨ ∃ text, a = .loadText e text) (h : findEngine s e = some x) (hr : x.run = .idle) :
      HostEffect s a (reply .done (setEngine e (loadedEngine image x) s))
  | firstLoad (a : HostAction) (e : EngineId) (image : List I64) (ha : a = .load e image ∨ ∃ text, a = .loadText e text)
      (h : findEngine s e = none) : HostEffect s a (reply .done (setEngine e (loadedEngine image Engine.reset) s))
  | attachInput (e : EngineId) (c : ChannelId) (x : Engine) (h : findEngine s e = some x) (hr : x.run = .idle)
      (hh : hostHoldsRecv s c = true) :
      HostEffect s (.attachInput e c) (reply .done (setEngine e { x with inp := some c } s))
  | attachOutput (e : EngineId) (c : ChannelId) (x : Engine) (h : findEngine s e = some x) (hr : x.run = .idle)
      (hh : hostHoldsSend s c = true) :
      HostEffect s (.attachOutput e c) (reply .done (setEngine e { x with outp := some c } s))
  | detachInput (e : EngineId) (x : Engine) (h : findEngine s e = some x) (hr : x.run = .idle) :
      HostEffect s (.detachInput e) (reply .done (setEngine e { x with inp := none } s))
  | detachOutput (e : EngineId) (x : Engine) (h : findEngine s e = some x) (hr : x.run = .idle) :
      HostEffect s (.detachOutput e) (reply .done (setEngine e { x with outp := none } s))
  | newChannel : HostEffect s .newChannel (reply (.channel s.nextChan) (createChannel s))
  | push (c : ChannelId) (v : I64) (hh : hostHoldsSend s c = true) (hr : (getChannel s c).receiverAlive = true) :
      HostEffect s (.push c v) (reply .done (setQueue c ((getChannel s c).queue ++ [v]) s))
  | pop (c : ChannelId) (v : I64) (rest : List I64) (hh : hostHoldsRecv s c = true)
      (hq : (getChannel s c).queue = v :: rest) : HostEffect s (.pop c) (reply (.value v) (setQueue c rest s))
  | dropSend (c : ChannelId) (hh : hostHoldsSend s c = true) :
      HostEffect s (.dropSend c) (reply .done (dropSender c s))
  | dropRecv (c : ChannelId) (hh : hostHoldsRecv s c = true) :
      HostEffect s (.dropRecv c) (reply .done (dropReceiver c s))
  | run (e : EngineId) (x : Engine) (t : State) (h : findEngine s e = some x) (hr : x.run = .idle)
      (hs : x.status = .running) (ht : selectEngine e s = some t) :
      HostEffect s (.run e) { t with eng := { t.eng with run := .inline } }
  | spawn (e : EngineId) (x : Engine) (r : Reply) (h : findEngine s e = some x) (hr : x.run = .idle) :
      HostEffect s (.spawn e)
        (reply r (startSpawned e { x with
          inp := (freshEnd x.inp s).1
          outp := (freshEnd x.outp (freshEnd x.inp s).2).1
          run := .spawned } (freshEnd x.outp (freshEnd x.inp s).2).2))

theorem hostEffect_onIdleEngine {s : State} {a : HostAction} {e : EngineId} {f : Engine → State}
    (h : ∀ x, findEngine s e = some x → x.run = .idle → HostEffect s a (f x)) : HostEffect s a (onIdleEngine e f s) := by
  unfold onIdleEngine
  split
  · exact .answer _ _
  · rename_i x hx
    split
    · rename_i hr
      exact h x hx hr
    · exact .answer _ _
    · exact .answer _ _

theorem hostEffect_hostLoad {s : State} {a : HostAction} {e : EngineId} {image : List I64}
    (ha : a = .load e image ∨ ∃ text, a = .loadText e text) : HostEffect s a (hostLoad e image s) := by
  unfold hostLoad
  split
  · rename_i h
    exact .firstLoad a e image ha h
  · exact hostEffect_onIdleEngine fun x h hr => .load a e image x ha h hr

/-- Every host action has one of these effects. -/
theorem hostEffect_hostAct (a : HostAction) (s : State) : HostEffect s a (hostAct a s) := by
  unfold hostAct
  split
  · exact .answer _ _
  cases a with
  | load e image => exact hostEffect_hostLoad (.inl rfl)
  | loadText e text =>
    have parse : HostEffect s (.loadText e text) (parseThenLoad e text s) := by
      unfold parseThenLoad
      split
      · exact .answer _ _
      · exact hostEffect_hostLoad (.inr ⟨text, rfl⟩)
    simp only [hostLoadText]
    split
    · exact parse
    · exact hostEffect_onIdleEngine fun _ _ _ => parse
  | attachInput e c =>
    simp only [hostAttachInput]
    split
    · rename_i hh
      exact hostEffect_onIdleEngine fun x h hr => .attachInput e c x h hr hh
    · exact .answer _ _
  | attachOutput e c =>
    simp only [hostAttachOutput]
    split
    · rename_i hh
      exact hostEffect_onIdleEngine fun x h hr => .attachOutput e c x h hr hh
    · exact .answer _ _
  | detachInput e => exact hostEffect_onIdleEngine fun x h hr => .detachInput e x h hr
  | detachOutput e => exact hostEffect_onIdleEngine fun x h hr => .detachOutput e x h hr
  | newChannel => exact .newChannel
  | push c v =>
    simp only [hostPush]
    split
    · rename_i h
      rw [Bool.and_eq_true] at h
      exact .push c v h.1 h.2
    · exact .answer _ _
  | pop c =>
    simp only [hostPop]
    split
    · rename_i hh
      split
      · rename_i v rest hq
        exact .pop c v rest hh hq
      · exact .answer _ _
    · exact .answer _ _
  | dropSend c =>
    simp only [hostDropSend]
    split
    · rename_i hh
      exact .dropSend c hh
    · exact .answer _ _
  | dropRecv c =>
    simp only [hostDropRecv]
    split
    · rename_i hh
      exact .dropRecv c hh
    · exact .answer _ _
  | run e =>
    refine hostEffect_onIdleEngine fun x h hr => ?_
    split
    · rename_i hs
      split
      · rename_i t ht
        exact .run e x t h hr hs ht
      · exact .answer _ _
    · exact .answer _ _
    · exact .answer _ _
  | spawn e => exact hostEffect_onIdleEngine fun x h hr => .spawn e x _ h hr
  | readMemory e => exact hostEffect_onIdleEngine fun x h hr => .answer _ _
  | readStatus e => exact hostEffect_onIdleEngine fun x h hr => .answer _ _

/-- While the host waits it makes no move. -/
theorem hostAct_of_waits {s : State} (h : hostWaits s = true) (a : HostAction) : hostAct a s = reply .refused s := by
  simp [hostAct, h]

theorem hostHoldsRecv_cases {s : State} {c : ChannelId} (h : hostHoldsRecv s c = true) :
    c < s.nextChan ∧ (getChannel s c).receiverAlive = true ∧ ∀ e x, findEngine s e = some x → x.inp ≠ some c := by
  simp only [hostHoldsRecv, Bool.and_eq_true, decide_eq_true_eq, List.all_eq_true] at h
  exact ⟨h.1.1, h.1.2, fun e x hx => h.2 x (mem_allEngines_of_findEngine hx)⟩

theorem hostHoldsSend_cases {s : State} {c : ChannelId} (h : hostHoldsSend s c = true) :
    c < s.nextChan ∧ (getChannel s c).senderAlive = true ∧ ∀ e x, findEngine s e = some x → x.outp ≠ some c := by
  simp only [hostHoldsSend, Bool.and_eq_true, decide_eq_true_eq, List.all_eq_true] at h
  exact ⟨h.1.1, h.1.2, fun e x hx => h.2 x (mem_allEngines_of_findEngine hx)⟩

/-! ### Engines after a host action -/

@[simp] theorem findEngine_reply (r : Reply) (s : State) (f : EngineId) : findEngine (reply r s) f = findEngine s f := rfl

@[simp] theorem findEngine_setChannel (c : ChannelId) (ch : Channel) (s : State) (f : EngineId) :
    findEngine (setChannel c ch s) f = findEngine s f := rfl

@[simp] theorem findEngine_setQueue (c : ChannelId) (q : List I64) (s : State) (f : EngineId) :
    findEngine (setQueue c q s) f = findEngine s f := rfl

@[simp] theorem findEngine_dropSender (c : ChannelId) (s : State) (f : EngineId) :
    findEngine (dropSender c s) f = findEngine s f := rfl

@[simp] theorem findEngine_dropReceiver (c : ChannelId) (s : State) (f : EngineId) :
    findEngine (dropReceiver c s) f = findEngine s f := rfl

@[simp] theorem findEngine_createChannel (s : State) (f : EngineId) :
    findEngine (createChannel s) f = findEngine s f := rfl

@[simp] theorem findEngine_freshEnd (h : Option ChannelId) (s : State) (f : EngineId) :
    findEngine (freshEnd h s).2 f = findEngine s f := by
  unfold freshEnd
  split <;> rfl

@[simp] theorem findEngine_releaseEnds (x : Engine) (s : State) (f : EngineId) :
    findEngine (releaseEnds x s) f = findEngine s f := by
  simp [findEngine]

theorem allEngines_freshEnd (h : Option ChannelId) (s : State) : allEngines (freshEnd h s).2 = allEngines s := by
  unfold freshEnd
  split <;> rfl

theorem allEngines_releaseEnds (x : Engine) (s : State) : allEngines (releaseEnds x s) = allEngines s := by
  simp [allEngines]

/-- A created channel stays as it is when a side of a spawned engine is connected. -/
theorem getChannel_freshEnd {h : Option ChannelId} {s : State} {c : ChannelId} (hc : c < s.nextChan) :
    getChannel (freshEnd h s).2 c = getChannel s c ∧ c < (freshEnd h s).2.nextChan := by
  unfold freshEnd
  split
  · exact ⟨rfl, hc⟩
  · exact ⟨getChannel_createChannel_ne (Nat.ne_of_lt hc), Nat.lt_succ_of_lt hc⟩

theorem getChannel_setEngine (e : EngineId) (x : Engine) (s : State) (c : ChannelId) :
    getChannel (setEngine e x s) c = getChannel s c := by
  simp [getChannel]

theorem findEngine_startSpawned (e : EngineId) (x : Engine) (s : State) (f : EngineId) :
    findEngine (startSpawned e x s) f =
      if f = e then some (if x.status = .running then x else endedEngine x.status x) else findEngine s f := by
  unfold startSpawned
  by_cases h : f = e
  · subst h
    split <;> simp_all [findEngine_setEngine_same]
  · split <;> simp [h, findEngine_setEngine_ne _ _ h]

theorem mem_allEngines_startSpawned {e : EngineId} {x y : Engine} {s : State}
    (h : y ∈ allEngines (startSpawned e x s)) : y = x ∨ y = endedEngine x.status x ∨ y ∈ allEngines s := by
  unfold startSpawned at h
  split at h
  · rcases mem_allEngines_setEngine h with h | h <;> simp [h]
  · rcases mem_allEngines_setEngine h with h | h
    · simp [h]
    · rw [allEngines_releaseEnds] at h
      simp [h]
  · rcases mem_allEngines_setEngine h with h | h
    · simp [h]
    · rw [allEngines_releaseEnds] at h
      simp [h]

end Sys2Proof.Machine
end

