-- ==== Sys2Proof/Laws/Text.lean ====
section
/-! SUPPORT. The character classes of the parser and the number that digits stand for are those of the grammar. -/

namespace Sys2Proof.Machine

theorem isSpace_iff {c : Char} : isSpace c = true ↔ IsBlank c := by
  simp [isSpace, IsBlank, or_assoc]

theorem digitText_of_isDigit {c : Char} (h : isDigit c = true) : DigitText c (c.toNat - '0'.toNat) := by
  simp only [isDigit, Bool.and_eq_true, decide_eq_true_eq] at h
  obtain ⟨h1, h2⟩ := h
  have key : ∀ n : Nat, n < 10 → DigitText (Char.ofNat ('0'.toNat + n)) n := by
    intro n hn
    interval_cases n
    exacts [.zero, .one, .two, .three, .four, .five, .six, .seven, .eight, .nine]
  have h0 : '0'.toNat = 48 := rfl
  have h9 : '9'.toNat = 57 := rfl
  have := key (c.toNat - '0'.toNat) (by omega)
  rwa [Nat.add_sub_cancel' h1, Char.ofNat_toNat] at this

theorem isDigit_of_digitText {c : Char} {n : Nat} (h : DigitText c n) : isDigit c = true ∧ n = c.toNat - '0'.toNat := by
  cases h <;> decide

theorem digitsValue_append (ds : List Char) (c : Char) :
    digitsValue (ds ++ [c]) = 10 * digitsValue ds + (c.toNat - '0'.toNat) := by
  simp [digitsValue]

/-- A text of digits by the grammar is a nonempty list of the parser's digits, and stands for the parser's number. -/
theorem digitsText_iff {ds : List Char} {n : Nat} :
    DigitsText ds n ↔ ds ≠ [] ∧ (∀ c ∈ ds, isDigit c = true) ∧ n = digitsValue ds := by
  constructor
  · intro h
    induction h with
    | one c n h =>
      obtain ⟨hc, rfl⟩ := isDigit_of_digitText h
      exact ⟨by simp, by simpa using hc, by simp [digitsValue]⟩
    | more cs n c d _ hd ih =>
      obtain ⟨-, h2, rfl⟩ := ih
      obtain ⟨hc, rfl⟩ := isDigit_of_digitText hd
      refine ⟨by simp, fun e he => ?_, (digitsValue_append cs c).symm⟩
      rcases List.mem_append.1 he with he | he
      · exact h2 e he
      · rw [List.mem_singleton.1 he]
        exact hc
  · rintro ⟨hne, hd, rfl⟩
    induction ds using List.reverseRecOn with
    | nil => exact absurd rfl hne
    | append_singleton cs c ih =>
      have hc := digitText_of_isDigit (hd c (by simp))
      rw [digitsValue_append]
      cases cs with
      | nil => simpa [digitsValue] using DigitsText.one c _ hc
      | cons d cs => exact .more _ _ c _ (ih (by simp) fun e he => hd e (List.mem_append_left _ he)) hc

end Sys2Proof.Machine
end

