-- ==== Sys2Proof/Tests/Slice0.lean ====
section
/-! SUPPORT. The model's own tests, each expected result from spec/95_test_vectors.md (its vector is named) or worked by
hand from a rule of spec/, and for every statement with hypotheses a concrete state and operands that meet them. -/

namespace Sys2Proof.Machine.Tests

/-! ### Small states -/

/-- Cells from numerals in range. -/
def cellsOf (l : List Int) : List I64 := l.map I64.wrap

/-- The conventions of 95_test_vectors.md: `image` loaded, the engine inside an inline run, an inbound channel 0 that holds
`input`, and an outbound channel 1. -/
def boot (image input : List Int) : State :=
  setQueue 0 (cellsOf input)
    { State.reset with
      nextChan := 2
      eng := { Engine.reset with mem := memLoad (cellsOf image), inp := some 0, outp := some 1, run := .inline } }

/-- The same with the relative base `r`. -/
def bootAt (r : Int) (image input : List Int) : State :=
  { boot image input with eng := { (boot image input).eng with rb := I64.wrap r } }

/-- The same with other parameters. -/
def bootWith (cfg : Config) (image : List Int) : State := { boot image [] with cfg := cfg }

/-- The same with no endpoint. -/
def bootAlone (image : List Int) : State :=
  { boot image [] with eng := { (boot image []).eng with inp := none, outp := none } }

/-- The engine that has the turn, not inside a run. -/
def idleBoot (image : List Int) : State := { boot image [] with eng := { (boot image []).eng with run := .idle } }

/-- The engine that has the turn, ended with a status. -/
def endedBoot (st : Status) : State :=
  { idleBoot [1105, 1, -7, 99] with eng := { (idleBoot [1105, 1, -7, 99]).eng with status := st } }

/-- A state with its pending moves. -/
def withAgenda (m : List Move) (s : State) : State := { s with agenda := m }

/-- The next state, where there is one. -/
def nextOf (o : Host.Outcome State Fault Refusal) : Option State :=
  match o with
  | .next t    => some t
  | .fault _   => none
  | .refused _ => none

/-- The value of a cell, `ip` and the status after a step. -/
def cellIpStatus (a : Nat) (o : Host.Outcome State Fault Refusal) : Option (Int × Nat × Status) :=
  (nextOf o).map fun t => ((memRead t.eng.mem a).val, t.eng.ip, t.eng.status)

/-- The cause of the fault, `ip` and the extent after a step. -/
def causeIpExtent (o : Host.Outcome State Fault Refusal) : Option (FaultCause × Nat × Nat) :=
  (nextOf o).bind fun t =>
    match t.eng.status with
    | .faulted f => some (f.cause, t.eng.ip, t.eng.mem.extent)
    | .running   => none
    | .halted    => none

/-- The outbound queue and `ip` after a step. -/
def sentAndIp (o : Host.Outcome State Fault Refusal) : Option (List Int × Nat) :=
  (nextOf o).map fun t => ((getChannel t 1).queue.map I64.val, t.eng.ip)

/-- `rb` and `ip` after a step. -/
def baseAndIp (o : Host.Outcome State Fault Refusal) : Option (Int × Nat) :=
  (nextOf o).map fun t => (t.eng.rb.val, t.eng.ip)

/-- The last answer the host received. -/
def lastReply (o : Host.Outcome State Fault Refusal) : Option Reply := (nextOf o).bind fun t => t.replies.getLast?

def pos (r : Int) : Operand := ⟨.position, I64.wrap r⟩

def imm (r : Int) : Operand := ⟨.immediate, I64.wrap r⟩

def rel (r : Int) : Operand := ⟨.relative, I64.wrap r⟩

/-! ### Well-formedness (30_encoding.md R53): an ill-formed term for each check -/

theorem test_wellFormed_accepts : (Instr.add (imm 3) (rel (-1)) (pos 5)).wellFormed = true := by decide

theorem test_wellFormed_write_immediate : (Instr.add (imm 3) (rel (-1)) (imm 5)).wellFormed = false := by decide

theorem test_wellFormed_read_unassigned : (Instr.output ⟨.unassigned 0, I64.zero⟩).wellFormed = false := by decide

theorem test_wellFormed_write_unassigned : (Instr.input ⟨.unassigned 6, I64.zero⟩).wellFormed = false := by decide

/-! ### Decoding: a word written out by hand for each constructor -/

/-- Opcode 01, modes 1, 2, 0 in digits 2, 3, 4: V23. -/
theorem test_decode_add :
    decode (I64.wrap 02101) (fun k => (cellsOf [3, -1, 5]).getD k .zero) = .ok (.add (imm 3) (rel (-1)) (pos 5)) := rfl

/-- V24. -/
theorem test_decode_mul :
    decode (I64.wrap 21202) (fun k => (cellsOf [10, 2, 20]).getD k .zero) = .ok (.mul (rel 10) (imm 2) (rel 20)) := rfl

/-- V25. -/
theorem test_decode_input : decode (I64.wrap 203) (fun k => (cellsOf [10]).getD k .zero) = .ok (.input (rel 10)) := rfl

/-- V26. -/
theorem test_decode_output : decode (I64.wrap 104) (fun k => (cellsOf [-7]).getD k .zero) = .ok (.output (imm (-7))) := rfl

/-- V27. -/
theorem test_decode_jumpIfTrue :
    decode (I64.wrap 1105) (fun k => (cellsOf [1, 4]).getD k .zero) = .ok (.jumpIfTrue (imm 1) (imm 4)) := rfl

/-- P6, cell 6. -/
theorem test_decode_jumpIfFalse :
    decode (I64.wrap 1006) (fun k => (cellsOf [30, 20]).getD k .zero) = .ok (.jumpIfFalse (pos 30) (imm 20)) := rfl

/-- P4, cell 6. -/
theorem test_decode_lessThan :
    decode (I64.wrap 1007) (fun k => (cellsOf [16, 8, 18]).getD k .zero) =
      .ok (.lessThan (pos 16) (imm 8) (pos 18)) := rfl

/-- P4, cell 2. -/
theorem test_decode_equals :
    decode (I64.wrap 1008) (fun k => (cellsOf [16, 8, 17]).getD k .zero) = .ok (.equals (pos 16) (imm 8) (pos 17)) := rfl

/-- P2, cell 10. -/
theorem test_decode_relativeBaseOffset :
    decode (I64.wrap 109) (fun k => (cellsOf [-60]).getD k .zero) = .ok (.relativeBaseOffset (imm (-60))) := rfl

/-- V29 and V4. -/
theorem test_decode_halt :
    decode (I64.wrap 99) (fun _ => .zero) = .ok .halt ∧ decode (I64.wrap 100099) (fun _ => .zero) = .ok .halt := ⟨rfl, rfl⟩

/-- V7, V8. -/
theorem test_decode_unknown :
    decode (I64.wrap 100) (fun _ => .zero) = .error (.unknownOpcode (I64.wrap 100)) ∧
      decode (I64.wrap 98) (fun _ => .zero) = .error (.unknownOpcode (I64.wrap 98)) := ⟨rfl, rfl⟩

/-- V9: `-99` is not Halt. -/
theorem test_decode_negative : decode (I64.wrap (-99)) (fun _ => .zero) = .error (.negativeWord (I64.wrap (-99))) := rfl

/-- V12: a mode digit with no meaning is decoded, and it is the resolver that faults on it. -/
theorem test_decode_unassigned_mode :
    decode (I64.wrap 301) (fun _ => .zero) = .ok (.add ⟨.unassigned 0, .zero⟩ (pos 0) (pos 0)) := rfl

/-- V23 to V28: assembling. -/
theorem test_encode :
    encode (.add (imm 3) (rel (-1)) (pos 5)) = cellsOf [2101, 3, -1, 5] ∧
      encode (.mul (rel 10) (imm 2) (rel 20)) = cellsOf [21202, 10, 2, 20] ∧
      encode (.input (rel 10)) = cellsOf [203, 10] ∧ encode (.output (imm (-7))) = cellsOf [104, -7] ∧
      encode (pseudoJmp (imm 4)) = cellsOf [1105, 1, 4] ∧ encode (pseudoMov (pos 9) (pos 10)) = cellsOf [1001, 9, 0, 10] := by
  decide

/-- The host's numbering: the first cell is the low 64 bits, the second the next 64. -/
theorem test_decodeTableWord :
    decodeTableWord 8 99 = some .halt ∧ decodeTableWord 8 4 = some (.output (pos 0)) ∧
      decodeTableWord 128 (104 + 2 ^ 64 * (2 ^ 64 - 7)) = some (.output (imm (-7))) ∧ decodeTableWord 8 42 = none := by
  decide

/-- From reset, the very next step runs the placed instruction: `out` finds no outbound endpoint. -/
theorem test_withFetchWord :
    causeIpExtent (step (State.reset.withFetchWord 8 4)) = some (.noOutputChannel, 0, 4) ∧
      cellIpStatus 0 (step (State.reset.withFetchWord 8 99)) = some (99, 0, .halted) := by
  decide

/-! ### One step of each instruction -/

/-- V38. -/
theorem test_add_relative : cellIpStatus 3 (step (bootAt 1 [22201, 0, 1, 2, 99] [])) = some (1, 4, .running) := by decide

/-- V32: the extent stays 5. -/
theorem test_add_overflow :
    causeIpExtent (step (boot [1101, 9223372036854775807, 1, 5, 99] [])) =
      some (.arithmeticOverflow 9223372036854775808, 0, 5) := by decide

/-- V48. -/
theorem test_mul_least :
    cellIpStatus 5 (step (boot [1102, -4294967296, 2147483648, 5, 99] [])) =
      some (-9223372036854775808, 4, .running) := by decide

/-- V50. -/
theorem test_mul_wraps :
    cellIpStatus 5 (step (bootWith ⟨.wrap, none⟩ [1102, 9223372036854775807, 2, 5, 99])) = some (-2, 4, .running) := by
  decide

/-- V52. -/
theorem test_input_relative : cellIpStatus 5 (step (bootAt 7 [203, -2, 99] [4])) = some (4, 2, .running) := by decide

/-- V55: a queued value is delivered although the sender was dropped. -/
theorem test_input_dead_sender :
    cellIpStatus 5 (step (dropSender 0 (boot [3, 5, 99] [6]))) = some (6, 2, .running) := by decide

/-- V59c: a read at 1000 sends 0 and does not grow memory. -/
theorem test_output_beyond_extent :
    sentAndIp (step (boot [4, 1000, 99] [])) = some ([0], 2) ∧
      (nextOf (step (boot [4, 1000, 99] []))).map (fun t => t.eng.mem.extent) = some 3 := by decide

/-- V59d. -/
theorem test_output_relative : sentAndIp (step (bootAt (-1) [204, 1, 99] [])) = some ([204], 2) := by decide

/-- V73: the target of a jump not taken is not checked. -/
theorem test_jumpIfTrue_not_taken : cellIpStatus 0 (step (boot [1105, 0, -7, 99] [])) = some (1105, 3, .running) := by decide

/-- V75: a target in position mode. -/
theorem test_jumpIfTrue_position :
    cellIpStatus 0 (step (boot [105, 1, 9, 0, 0, 0, 0, 0, 0, 7] [])) = some (105, 7, .running) := by decide

/-- V79. -/
theorem test_jumpIfFalse_position : cellIpStatus 0 (step (boot [6, 100, 3, 99] [])) = some (6, 99, .running) := by decide

/-- V80. -/
theorem test_jumpIfFalse_negative :
    causeIpExtent (step (boot [1106, 0, -1, 99] [])) = some (.negativeAddress 1 (-1), 0, 4) := by decide

/-- V62: the comparison is signed. -/
theorem test_lessThan_signed :
    cellIpStatus 5 (step (boot [1107, -9223372036854775808, 9223372036854775807, 5, 99] [])) = some (1, 4, .running) := by
  decide

/-- V60. -/
theorem test_lessThan_equal : cellIpStatus 5 (step (boot [1107, 5, 5, 5, 99] [])) = some (0, 4, .running) := by decide

/-- V65. -/
theorem test_equals_zero : cellIpStatus 5 (step (boot [1008, 100, 0, 5, 99] [])) = some (1, 4, .running) := by decide

/-- V67. -/
theorem test_equals_not : cellIpStatus 5 (step (boot [1108, 1, 2, 5, 99] [])) = some (0, 4, .running) := by decide

/-- V92: the operand is read at the old base. -/
theorem test_relativeBaseOffset_old_base : baseAndIp (step (bootAt 1 [209, 3, 99, 40, 6] [])) = some (7, 2) := by decide

/-- V94: `rb` stays. -/
theorem test_relativeBaseOffset_overflow :
    causeIpExtent (step (bootAt 9223372036854775807 [109, 1, 99] [])) =
        some (.arithmeticOverflow 9223372036854775808, 0, 3) ∧
      baseAndIp (step (bootAt 9223372036854775807 [109, 1, 99] [])) = some (9223372036854775807, 0) := by decide

/-- S1 and V101. -/
theorem test_halt :
    cellIpStatus 0 (step (boot [99] [])) = some (99, 0, .halted) ∧
      cellIpStatus 0 (step (boot [10099] [])) = some (10099, 0, .halted) := by decide

/-! ### Faults and holding -/

/-- S9: the word 42 is no instruction. -/
theorem test_invalid_opcode :
    causeIpExtent (step (boot [42, 1, 1, 5] [])) = some (.invalidOpcode (I64.wrap 42), 0, 4) := by decide

/-- V19 and V20: slot 0 is checked before slot 2, slot 1 before slot 2. -/
theorem test_first_slot_first :
    causeIpExtent (step (boot [10301, -1, 1, 1, 99] [])) = some (.invalidMode 0 3, 0, 5) ∧
      causeIpExtent (step (boot [10001, 0, -5, 1, 99] [])) = some (.negativeAddress 1 (-5), 0, 5) := by decide

/-- V21 and V22: the operand is checked before the endpoint. -/
theorem test_operand_before_endpoint :
    causeIpExtent (step (bootAlone [103, 5, 99])) = some (.illegalWriteMode 0, 0, 3) ∧
      causeIpExtent (step (bootAlone [4, -1, 99])) = some (.negativeAddress 0 (-1), 0, 3) := by decide

/-- V54, V56, V59a and V59b. -/
theorem test_channel_faults :
    causeIpExtent (step (dropSender 0 (boot [3, 5, 99] []))) = some (.channelClosed .input, 0, 3) ∧
      causeIpExtent (step (bootAlone [3, 5, 99])) = some (.noInputChannel, 0, 3) ∧
      causeIpExtent (step (bootAlone [4, 0, 99])) = some (.noOutputChannel, 0, 3) ∧
      causeIpExtent (step (dropReceiver 1 (boot [4, 0, 99] []))) = some (.channelClosed .output, 0, 3) := by decide

/-- V40 and V41: a write at the capacity faults, one below it does not. -/
theorem test_capacity :
    causeIpExtent (step (bootWith ⟨.fault, some 10⟩ [1101, 1, 1, 10, 99])) = some (.resourceExhausted 10, 0, 5) ∧
      cellIpStatus 9 (step (bootWith ⟨.fault, some 10⟩ [1101, 1, 1, 9, 99])) = some (2, 4, .running) := by decide

/-- V53: Input on an empty queue with a live sender changes nothing. -/
theorem test_input_holds : nextOf (step (boot [3, 5, 99] [])) = some (boot [3, 5, 99] []) := by decide

/-! ### Program text and host actions -/

/-- V110 to V112 and V114. -/
theorem test_text_accepted :
    parseText ['1', ',', '0', ',', '0', ',', '0', ',', '9', '9'] = some (cellsOf [1, 0, 0, 0, 99]) ∧
      parseText [' ', '1', ' ', ',', ' ', '-', '2', ' ', ',', '+', '3', '\n'] = some (cellsOf [1, -2, 3]) ∧
      parseText ['0', '0', '7', ',', '9', '9'] = some (cellsOf [7, 99]) ∧
      parseText "-9223372036854775808".toList = some (cellsOf [-9223372036854775808]) := by decide

/-- V113. -/
theorem test_text_refused :
    parseText [] = none ∧ parseText ['1', ',', ',', '2'] = none ∧ parseText ['1', ',', '2', ','] = none ∧
      parseText ['1', ';', '2'] = none ∧ parseText "9223372036854775808".toList = none := by decide

/-- V105: a load into a Faulted engine. -/
theorem test_load_into_faulted :
    cellIpStatus 4 (step (withAgenda [.host (.load 0 (cellsOf [1, 0, 0, 0, 99]))]
      (endedBoot (.faulted ⟨.negativeAddress 1 (-7), 0, I64.wrap 1105⟩)))) = some (99, 0, .running) := by decide

/-- V102: `run` on a Halted engine returns ok at once. -/
theorem test_run_of_halted : lastReply (step (withAgenda [.host (.run 0)] (endedBoot .halted))) = some (.ran 0 none) := by
  decide

/-- R31: the readout of S2's image. -/
theorem test_readMemory :
    lastReply (step (withAgenda [.host (.readMemory 0)] (idleBoot [1, 0, 0, 0, 99]))) =
      some (.memory (cellsOf [1, 0, 0, 0, 99])) := by decide

/-- P5, steps 1 and 3: a channel is created, and a spawn keeps the attached outbound endpoint and gives a fresh inbound
one. -/
theorem test_spawn :
    lastReply (step (withAgenda [.host .newChannel] State.reset)) = some (.channel 0) ∧
      lastReply (step (withAgenda [.host (.spawn 0)]
        { State.reset with nextChan := 1, eng := { Engine.reset with outp := some 0 } })) = some (.spawned (some 1) none) := by
  decide

/-- R76: a spawned engine that does not have the turn steps on with no move pending. -/
theorem test_spawned_other_steps :
    (nextOf (step { idleBoot [99] with
      others := [(3, { Engine.reset with mem := memLoad (cellsOf [1105, 1, 0]), run := .spawned })] })).map
        (fun t => (t.self, t.eng.ip, t.eng.status, (findEngine t 0).map Engine.run)) =
          some (3, 0, .running, some .idle) := by decide

/-- R105: a text for an engine inside a run is refused, whatever the text. -/
theorem test_loadText_inside_a_run :
    lastReply (step { withAgenda [.host (.loadText 3 [])] (idleBoot [99]) with
      others := [(3, { Engine.reset with run := .spawned })] }) = some .refused := by decide

/-- D27: a spawned engine that halts drops both endpoints. -/
theorem test_spawned_halt :
    (nextOf (step { boot [99] [] with eng := { (boot [99] []).eng with run := .spawned } })).map
      (fun t => ((getChannel t 0).receiverAlive, (getChannel t 1).senderAlive, t.eng.inp, t.eng.outp)) =
        some (false, false, none, none) := by decide

/-! ### Witnesses: concrete states and operands that meet the hypotheses of each statement -/

/-- `rb = -5`; cell 1 holds 4, read through `rel 6`; cell 0 is `rel 5`; cell 5 lies above the extent. -/
def trio : State := bootAt (-5) [9, 4, 0] []

theorem uncapped (s : State) (h : s.cfg.memCap = none) (a : Nat) : UnderCap s.cfg a := by simp [UnderCap, h]

/-- The operands of the witnesses: one of each mode, and as destinations the cell 0 and a cell above the extent. -/
theorem trio_operands :
    trio.eng.mem.wf ∧ ReadsAs trio.eng (rel 6) (I64.wrap 4) ∧ ReadsAs trio.eng (imm (-7)) (I64.wrap (-7)) ∧
      WritesTo trio.cfg trio.eng (pos 5) 5 ∧ WritesTo trio.cfg trio.eng (rel 5) 0 :=
  ⟨by decide, .inr ⟨1, rfl, by decide⟩, .inl ⟨rfl, rfl⟩, ⟨rfl, uncapped _ rfl _⟩, ⟨rfl, uncapped _ rfl _⟩⟩

theorem witness_FetchOfEncodedIsTheInstruction :
    (∀ k, k < 4 → memRead (boot [2101, 3, -1, 5] []).eng.mem (0 + k) =
        (encode (.add (imm 3) (rel (-1)) (pos 5))).getD k I64.zero) ∧
      ∀ k, k < 1 → memRead (boot [99] []).eng.mem (0 + k) = (encode .halt).getD k I64.zero := by decide

theorem witness_OpcodeIsWordModHundred : (I64.wrap (-1)).val < 0 := by decide

theorem witness_DecodeAcceptsExactlyTheTable :
    decode (I64.wrap 1) (fun _ => .zero) = .ok (.add (pos 0) (pos 0) (pos 0)) ∧
      decode (I64.wrap 9223372036854775799) (fun _ => .zero) = .ok .halt := ⟨rfl, rfl⟩

theorem witness_UnusedDigitsAreIgnored :
    0 ≤ (I64.wrap 104).val ∧ 0 ≤ (I64.wrap 11104).val ∧ (I64.wrap 104).val % 100 = (I64.wrap 11104).val % 100 ∧
      (∀ k, k < 1 → digit (I64.wrap 104).val.toNat (2 + k) = digit (I64.wrap 11104).val.toNat (2 + k)) ∧
      decode (I64.wrap 104) (fun _ => .zero) = .ok (.output (imm 0)) := ⟨by decide, by decide, by decide, by decide, rfl⟩

theorem witness_StepRunsTheFetchedInstruction :
    AboutToExecute (boot [2101, 3, -1, 5] []) (.add (imm 3) (rel (-1)) (pos 5)) := ⟨rfl, by decide, by decide, rfl⟩

/-- Two engines, the second spawned with `image`, and a turn for it. -/
def twoWith (image : List Int) : State :=
  withAgenda [.turn 3]
    { boot [109, 1] [] with others := [(3, { Engine.reset with mem := memLoad (cellsOf image), run := .spawned })] }

theorem two_names (image : List Int) : NamesCanonical (twoWith image) :=
  ⟨by simp [twoWith, withAgenda], by simp [twoWith, withAgenda, boot, setQueue, setChannel, State.reset]⟩

theorem names_of_no_others {s : State} (h : s.others = []) : NamesCanonical s := by simp [NamesCanonical, h]

theorem only_engine {s : State} (h : s.others = []) (e : EngineId) (x : Engine) (hx : findEngine s e = some x) :
    e = s.self := by
  by_contra he
  simp [findEngine, he, h, sparseGet?] at hx

/-- A pending turn of engine 3; the only engine, with no move pending; and two engines that can step, with no move
pending, of which one may find a word that is no instruction. -/
theorem witness_ScheduledTurnRunsThatEngine :
    (NamesCanonical (twoWith [99]) ∧ NextIs (twoWith [99]) 3 [] ∧
      ∃ x, findEngine (twoWith [99]) 3 = some x ∧ CanStep x ∧ fetch x = .ok .halt) ∧
    (NamesCanonical (boot [99] []) ∧ NextIs (boot [99] []) 0 [] ∧
      ∃ x, findEngine (boot [99] []) 0 = some x ∧ CanStep x ∧ fetch x = .ok .halt) ∧
    (NamesCanonical (withAgenda [] (twoWith [99])) ∧ (withAgenda [] (twoWith [99])).agenda = [] ∧
      (∃ x, findEngine (withAgenda [] (twoWith [99])) 0 = some x ∧ CanStep x) ∧
      ∃ x, findEngine (withAgenda [] (twoWith [99])) 3 = some x ∧ CanStep x) ∧
    (NamesCanonical (withAgenda [] (twoWith [-1])) ∧ (withAgenda [] (twoWith [-1])).agenda = [] ∧
      ∃ x, findEngine (withAgenda [] (twoWith [-1])) 3 = some x ∧ CanStep x ∧ FindsNoInstruction x) :=
  ⟨⟨two_names _, .inl rfl, _, rfl, by decide, rfl⟩,
   ⟨names_of_no_others rfl, .inr ⟨rfl, rfl, fun f y hy _ => only_engine rfl f y hy⟩, _, rfl, by decide, rfl⟩,
   ⟨two_names _, rfl, ⟨_, rfl, by decide⟩, _, rfl, by decide⟩, two_names _, rfl, _, rfl, by decide, .inl (by decide)⟩

/-- A negative word, by a pending turn; and a word with no opcode, with no move pending. -/
theorem witness_InvalidOpcodeEndsTheEngine :
    (NamesCanonical (twoWith [-1]) ∧ NextIs (twoWith [-1]) 3 [] ∧
      ∃ x, findEngine (twoWith [-1]) 3 = some x ∧ CanStep x ∧ FindsNoInstruction x) ∧
    (NamesCanonical (boot [100] []) ∧ NextIs (boot [100] []) 0 [] ∧
      ∃ x, findEngine (boot [100] []) 0 = some x ∧ CanStep x ∧ FindsNoInstruction x) :=
  ⟨⟨two_names _, .inl rfl, _, rfl, by decide, .inl (by decide)⟩,
   names_of_no_others rfl, .inr ⟨rfl, rfl, fun f y hy _ => only_engine rfl f y hy⟩, _, rfl, by decide, .inr (by decide)⟩

/-- A fault of slot 0 by its mode, of slot 1 by its address, of slot 2 by its kind, and by the capacity. -/
theorem witness_FirstSlotFaultIsReported :
    FirstSlotFault trio.cfg trio.eng 0 (Instr.add ⟨.unassigned 0, .zero⟩ (imm 1) (imm 1)).slots (.invalidMode 0 3) ∧
    FirstSlotFault trio.cfg trio.eng 0 (Instr.add (imm 1) (rel 4) (imm 1)).slots (.negativeAddress 1 (-1)) ∧
    FirstSlotFault trio.cfg trio.eng 0 (Instr.add (imm 1) (rel 5) (imm 1)).slots (.illegalWriteMode 2) ∧
    FirstSlotFault ⟨.fault, some 10⟩ trio.eng 0 (Instr.input (pos 10)).slots (.resourceExhausted 10) :=
  ⟨.inl (.inl ⟨0, rfl, rfl⟩),
   .inr ⟨⟨_, .inl ⟨rfl, rfl⟩⟩, .inl (.inr (.inr (.inl ⟨-1, rfl, by decide, rfl⟩)))⟩,
   .inr ⟨⟨_, .inl ⟨rfl, rfl⟩⟩, .inr ⟨⟨_, .inr ⟨0, rfl, rfl⟩⟩, .inl (.inr (.inl ⟨rfl, rfl, rfl⟩))⟩⟩,
   .inl (.inr (.inr (.inr ⟨rfl, 10, 10, rfl, rfl, by decide, rfl⟩)))⟩

/-- The engine with the turn faults; and a turn for engine 3, spawned with a word that is no instruction, faults that. -/
theorem witness_FaultsArePrecise :
    (NamesCanonical (boot [1, -1, 0, 0, 99] []) ∧
      ∃ x t y f, findEngine (boot [1, -1, 0, 0, 99] []) 0 = some x ∧ x.status = .running ∧
        step (boot [1, -1, 0, 0, 99] []) = .next t ∧ findEngine t 0 = some y ∧ y.status = .faulted f) ∧
    (NamesCanonical (twoWith [98]) ∧
      ∃ x t y f, findEngine (twoWith [98]) 3 = some x ∧ x.status = .running ∧ step (twoWith [98]) = .next t ∧
        findEngine t 3 = some y ∧ y.status = .faulted f) :=
  ⟨⟨names_of_no_others rfl, _, _, _, _, rfl, rfl, rfl, rfl, rfl⟩, two_names _, _, _, _, _, rfl, rfl, rfl, rfl, rfl⟩

/-- An inline run that ends in a fault. -/
theorem witness_FaultRecordNamesItsInstruction :
    NamesCanonical (boot [42] []) ∧
      ∃ x t y f, findEngine (boot [42] []) 0 = some x ∧ x.status = .running ∧ step (boot [42] []) = .next t ∧
        findEngine t 0 = some y ∧ y.status = .faulted f ∧ x.run = .inline :=
  ⟨names_of_no_others rfl, _, _, _, _, rfl, rfl, rfl, rfl, rfl, rfl⟩

/-- A turn of an ended engine; a Halted, a Faulted and an idle engine alone; and an engine that can step beside an ended one. -/
theorem witness_EndedEngineHasNoStep :
    (NamesCanonical (withAgenda [.turn 0] (endedBoot .halted)) ∧
      ∃ x, findEngine (withAgenda [.turn 0] (endedBoot .halted)) 0 = some x ∧ x.status.Ended) ∧
    ((endedBoot .halted).agenda = [] ∧ (∀ x ∈ allEngines (endedBoot .halted), ¬ CanStep x) ∧
      (endedBoot .halted).eng.status.Ended) ∧
    ((∀ x ∈ allEngines (endedBoot (.faulted ⟨.noInputChannel, 0, .zero⟩)), ¬ CanStep x) ∧
      (endedBoot (.faulted ⟨.noInputChannel, 0, .zero⟩)).eng.status.Ended) ∧
    ((idleBoot [99]).agenda = [] ∧ (∀ x ∈ allEngines (idleBoot [99]), ¬ CanStep x) ∧
      (idleBoot [99]).eng.status = .running) ∧
    ∃ x ∈ allEngines (twoWith [99]), CanStep x :=
  ⟨⟨names_of_no_others rfl, _, rfl, .inl rfl⟩, ⟨rfl, by decide, .inl rfl⟩, ⟨by decide, .inr ⟨_, rfl⟩⟩,
   ⟨rfl, by decide, rfl⟩, _, List.mem_cons_self, by decide⟩

theorem boot_names (image input : List Int) : NamesCanonical (boot image input) := names_of_no_others rfl

theorem ended_names (st : Status) (m : List Move) : NamesCanonical (withAgenda m (endedBoot st)) := names_of_no_others rfl

/-- A Halted engine under a turn, which does nothing, and under a load of it. -/
theorem witness_OnlyLoadLeavesEndedStatus :
    (NamesCanonical (withAgenda [.turn 0] (endedBoot .halted)) ∧
      ∃ x t, findEngine (withAgenda [.turn 0] (endedBoot .halted)) 0 = some x ∧ x.status.Ended ∧
        step (withAgenda [.turn 0] (endedBoot .halted)) = .next t) ∧
    (NamesCanonical (withAgenda [.host (.load 0 [])] (endedBoot .halted)) ∧
      ∃ x t, findEngine (withAgenda [.host (.load 0 [])] (endedBoot .halted)) 0 = some x ∧ x.status.Ended ∧
        step (withAgenda [.host (.load 0 [])] (endedBoot .halted)) = .next t) :=
  ⟨⟨ended_names _ _, _, _, rfl, .inl rfl, rfl⟩, ⟨ended_names _ _, _, _, rfl, .inl rfl, rfl⟩⟩

/-- A sum above the extent, and the greatest sum, into cell 0. -/
theorem witness_AddStoresTheSum :
    (trio.eng.mem.wf ∧ ReadsAs trio.eng (rel 6) (I64.wrap 4) ∧ ReadsAs trio.eng (imm (-7)) (I64.wrap (-7)) ∧
      WritesTo trio.cfg trio.eng (pos 5) 5 ∧ (I64.wrap (-3)).val = (I64.wrap 4).val + (I64.wrap (-7)).val) ∧
    (ReadsAs trio.eng (imm 9223372036854775803) (I64.wrap 9223372036854775803) ∧ WritesTo trio.cfg trio.eng (rel 5) 0 ∧
      (I64.wrap 9223372036854775807).val = (I64.wrap 4).val + (I64.wrap 9223372036854775803).val) :=
  ⟨⟨trio_operands.1, trio_operands.2.1, trio_operands.2.2.1, trio_operands.2.2.2.1, by decide⟩,
   ⟨.inl ⟨rfl, rfl⟩, trio_operands.2.2.2.2, by decide⟩⟩

theorem witness_MultiplyStoresTheProduct :
    (trio.eng.mem.wf ∧ ReadsAs trio.eng (rel 6) (I64.wrap 4) ∧ ReadsAs trio.eng (imm (-7)) (I64.wrap (-7)) ∧
      WritesTo trio.cfg trio.eng (pos 5) 5 ∧ (I64.wrap (-28)).val = (I64.wrap 4).val * (I64.wrap (-7)).val) ∧
    (ReadsAs trio.eng (imm (-2305843009213693952)) (I64.wrap (-2305843009213693952)) ∧
      WritesTo trio.cfg trio.eng (rel 5) 0 ∧
      (I64.wrap (-9223372036854775808)).val = (I64.wrap 4).val * (I64.wrap (-2305843009213693952)).val) :=
  ⟨⟨trio_operands.1, trio_operands.2.1, trio_operands.2.2.1, trio_operands.2.2.2.1, by decide⟩,
   ⟨.inl ⟨rfl, rfl⟩, trio_operands.2.2.2.2, by decide⟩⟩

/-- Each of the three results one outside `I64`: `2^63`, `2^63`, and `-2^63 - 1` for the base -5. -/
theorem witness_OverflowFaultsUnderFaultPolicy :
    trio.cfg.overflowPolicy = .fault ∧ ReadsAs trio.eng (rel 6) (I64.wrap 4) ∧ WritesTo trio.cfg trio.eng (pos 5) 5 ∧
      (ReadsAs trio.eng (imm 9223372036854775804) (I64.wrap 9223372036854775804) ∧
        ¬ I64.InRange ((I64.wrap 4).val + (I64.wrap 9223372036854775804).val)) ∧
      (ReadsAs trio.eng (imm 2305843009213693952) (I64.wrap 2305843009213693952) ∧
        ¬ I64.InRange ((I64.wrap 4).val * (I64.wrap 2305843009213693952).val)) ∧
      (ReadsAs trio.eng (imm (-9223372036854775804)) (I64.wrap (-9223372036854775804)) ∧
        ¬ I64.InRange (trio.eng.rb.val + (I64.wrap (-9223372036854775804)).val)) :=
  ⟨rfl, trio_operands.2.1, trio_operands.2.2.2.1, ⟨.inl ⟨rfl, rfl⟩, by decide⟩, ⟨.inl ⟨rfl, rfl⟩, by decide⟩,
   ⟨.inl ⟨rfl, rfl⟩, by decide⟩⟩

theorem witness_OverflowWrapsUnderWrapPolicy :
    (bootWith ⟨.wrap, none⟩ [1101, 7]).cfg.overflowPolicy = .wrap ∧ (bootWith ⟨.wrap, none⟩ [1101, 7]).eng.mem.wf ∧
      ReadsAs (bootWith ⟨.wrap, none⟩ [1101, 7]).eng (pos 1) (I64.wrap 7) ∧
      ReadsAs (bootWith ⟨.wrap, none⟩ [1101, 7]).eng (imm 9223372036854775807) (I64.wrap 9223372036854775807) ∧
      WritesTo (bootWith ⟨.wrap, none⟩ [1101, 7]).cfg (bootWith ⟨.wrap, none⟩ [1101, 7]).eng (pos 0) 0 :=
  ⟨rfl, by decide, .inr ⟨1, rfl, by decide⟩, .inl ⟨rfl, rfl⟩, rfl, uncapped _ rfl _⟩

/-- A target 4, a negative target, a copy into cell 0, and a copy that faults. -/
theorem witness_PseudoInstructionsJumpAndCopy :
    trio.eng.mem.wf ∧ (ReadsAs trio.eng (rel 6) (I64.wrap 4) ∧ (I64.wrap 4).val = ((4 : Nat) : Int)) ∧
      (ReadsAs trio.eng (imm (-7)) (I64.wrap (-7)) ∧ (I64.wrap (-7)).val < 0) ∧ WritesTo trio.cfg trio.eng (rel 5) 0 ∧
      trio.eng.status = .running ∧
      ∃ t f, exec (pseudoMov (rel 6) (imm 0)) trio = .next t ∧ t.eng.status = .faulted f :=
  ⟨trio_operands.1, ⟨trio_operands.2.1, by decide⟩, ⟨trio_operands.2.2.1, by decide⟩, trio_operands.2.2.2.2, rfl, _, _,
   rfl, rfl⟩

/-- Operands in either order, so that the comparison is once true and once false. -/
theorem witness_LessThanStoresTheComparison :
    trio.eng.mem.wf ∧ ReadsAs trio.eng (rel 6) (I64.wrap 4) ∧ ReadsAs trio.eng (imm (-7)) (I64.wrap (-7)) ∧
      WritesTo trio.cfg trio.eng (pos 5) 5 ∧ (I64.wrap (-7)).val < (I64.wrap 4).val :=
  ⟨trio_operands.1, trio_operands.2.1, trio_operands.2.2.1, trio_operands.2.2.2.1, by decide⟩

theorem witness_EqualsStoresTheComparison :
    trio.eng.mem.wf ∧ ReadsAs trio.eng (rel 6) (I64.wrap 4) ∧ ReadsAs trio.eng (imm 4) (I64.wrap 4) ∧
      ReadsAs trio.eng (imm (-7)) (I64.wrap (-7)) ∧ WritesTo trio.cfg trio.eng (pos 5) 5 :=
  ⟨trio_operands.1, trio_operands.2.1, .inl ⟨rfl, rfl⟩, trio_operands.2.2.1, trio_operands.2.2.2.1⟩

/-- A comparison that faults: its third operand is in immediate mode. -/
theorem witness_ComparisonsNeverOverflow :
    trio.eng.status = .running ∧
      (∃ t f, exec (.lessThan (imm 1) (imm 2) (imm 3)) trio = .next t ∧ t.eng.status = .faulted f) ∧
      ∃ t f, exec (.equals (imm 1) (imm 2) (imm 3)) trio = .next t ∧ t.eng.status = .faulted f :=
  ⟨rfl, ⟨_, _, rfl, rfl⟩, ⟨_, _, rfl, rfl⟩⟩

theorem witness_InputTakesTheHead :
    (boot [3, 5] [6, 7]).eng.mem.wf ∧ WritesTo (boot [3, 5] [6, 7]).cfg (boot [3, 5] [6, 7]).eng (pos 5) 5 ∧
      (boot [3, 5] [6, 7]).eng.inp = some 0 ∧
      (getChannel (boot [3, 5] [6, 7]) 0).queue = I64.wrap 6 :: [I64.wrap 7] :=
  ⟨by decide, ⟨rfl, uncapped _ rfl _⟩, rfl, rfl⟩

theorem witness_InputHoldsOnAnEmptyQueue :
    WritesTo (boot [3, 5] []).cfg (boot [3, 5] []).eng (pos 5) 5 ∧ (boot [3, 5] []).eng.inp = some 0 ∧
      (getChannel (boot [3, 5] []) 0).queue = [] ∧ (getChannel (boot [3, 5] []) 0).senderAlive = true ∧
      AboutToExecute (boot [3, 5] []) (.input (pos 5)) :=
  ⟨⟨rfl, uncapped _ rfl _⟩, rfl, rfl, rfl, rfl, by decide, by decide, rfl⟩

/-- The state of V53 with the engine spawned, a push of 6 and a turn. -/
def held : State :=
  withAgenda [.host (.push 0 (I64.wrap 6)), .turn 0]
    { boot [3, 5] [] with eng := { (boot [3, 5] []).eng with run := .spawned } }

theorem witness_PushReleasesAHeldInput :
    held.eng.mem.wf ∧ held.agenda = .host (.push 0 (I64.wrap 6)) :: .turn held.self :: [] ∧
      held.eng.status = .running ∧ held.eng.run = .spawned ∧ fetch held.eng = .ok (.input (pos 5)) ∧
      WritesTo held.cfg held.eng (pos 5) 5 ∧ held.eng.inp = some 0 ∧ (getChannel held 0).queue = [] ∧
      (getChannel held 0).receiverAlive = true ∧ hostHoldsSend held 0 = true ∧ hostWaits held = false :=
  ⟨by decide, rfl, rfl, rfl, rfl, ⟨rfl, uncapped _ rfl _⟩, rfl, rfl, rfl, by decide, by decide⟩

/-- No endpoint, and a sender that is gone. -/
theorem witness_InputFaultsWithoutALiveChannel :
    (WritesTo (bootAlone [3, 5]).cfg (bootAlone [3, 5]).eng (pos 5) 5 ∧ (bootAlone [3, 5]).eng.inp = none) ∧
      (WritesTo (dropSender 0 (boot [3, 5] [])).cfg (dropSender 0 (boot [3, 5] [])).eng (pos 5) 5 ∧
        (dropSender 0 (boot [3, 5] [])).eng.inp = some 0 ∧ (getChannel (dropSender 0 (boot [3, 5] [])) 0).queue = [] ∧
        (getChannel (dropSender 0 (boot [3, 5] [])) 0).senderAlive = false) :=
  ⟨⟨⟨rfl, uncapped _ rfl _⟩, rfl⟩, ⟨rfl, uncapped _ rfl _⟩, rfl, rfl, rfl⟩

theorem witness_OutputAppendsItsValue :
    ReadsAs trio.eng (rel 6) (I64.wrap 4) ∧ trio.eng.outp = some 1 ∧ (getChannel trio 1).receiverAlive = true :=
  ⟨trio_operands.2.1, rfl, rfl⟩

theorem witness_OutputFaultsWithoutALiveChannel :
    (ReadsAs (bootAlone [4, 0]).eng (pos 0) (I64.wrap 4) ∧ (bootAlone [4, 0]).eng.outp = none) ∧
      (ReadsAs (dropReceiver 1 trio).eng (rel 6) (I64.wrap 4) ∧ (dropReceiver 1 trio).eng.outp = some 1 ∧
        (getChannel (dropReceiver 1 trio) 1).receiverAlive = false) :=
  ⟨⟨.inr ⟨0, rfl, by decide⟩, rfl⟩, trio_operands.2.1, rfl, rfl⟩

/-- Targets 0 and -1, and a test that is 0; the same operands serve `JumpIfFalseTestsForZero`. -/
theorem witness_JumpIfTrueTestsForNonzero :
    ReadsAs trio.eng (rel 6) (I64.wrap 4) ∧ (I64.wrap 4).val ≠ 0 ∧ ReadsAs trio.eng (imm 0) (I64.wrap 0) ∧
      (I64.wrap 0).val = ((0 : Nat) : Int) ∧ ReadsAs trio.eng (imm (-1)) (I64.wrap (-1)) ∧ (I64.wrap (-1)).val < 0 :=
  ⟨trio_operands.2.1, by decide, .inl ⟨rfl, rfl⟩, by decide, .inl ⟨rfl, rfl⟩, by decide⟩

theorem witness_JumpIfFalseTestsForZero :
    ReadsAs trio.eng (pos 2) (I64.wrap 0) ∧ (I64.wrap 0).val = 0 ∧ ReadsAs trio.eng (imm 0) (I64.wrap 0) ∧
      (I64.wrap 0).val = ((0 : Nat) : Int) ∧ ReadsAs trio.eng (imm (-1)) (I64.wrap (-1)) ∧ (I64.wrap (-1)).val < 0 ∧
      ReadsAs trio.eng (rel 6) (I64.wrap 4) ∧ (I64.wrap 4).val ≠ 0 :=
  ⟨.inr ⟨2, rfl, by decide⟩, by decide, .inl ⟨rfl, rfl⟩, by decide, .inl ⟨rfl, rfl⟩, by decide, trio_operands.2.1,
   by decide⟩

/-- V76, and the same jump by the inverted condition. -/
theorem witness_TakenJumpToItselfLoops :
    (AboutToExecute (boot [1105, 1, 0] []) (.jumpIfTrue (imm 1) (imm 0)) ∧
      ReadsAs (boot [1105, 1, 0] []).eng (imm 1) (I64.wrap 1) ∧ ReadsAs (boot [1105, 1, 0] []).eng (imm 0) (I64.wrap 0) ∧
      (I64.wrap 1).val ≠ 0 ∧ (I64.wrap 0).val = ((boot [1105, 1, 0] []).eng.ip : Int)) ∧
    (AboutToExecute (boot [1106, 0, 0] []) (.jumpIfFalse (imm 0) (imm 0)) ∧
      ReadsAs (boot [1106, 0, 0] []).eng (imm 0) (I64.wrap 0) ∧ (I64.wrap 0).val = 0 ∧
      (I64.wrap 0).val = ((boot [1106, 0, 0] []).eng.ip : Int)) :=
  ⟨⟨⟨rfl, by decide, by decide, rfl⟩, .inl ⟨rfl, rfl⟩, .inl ⟨rfl, rfl⟩, by decide, by decide⟩,
   ⟨rfl, by decide, by decide, rfl⟩, .inl ⟨rfl, rfl⟩, by decide, by decide⟩

/-- The least sum that fits. -/
theorem witness_RelativeBaseAddsItsOperand :
    ReadsAs trio.eng (imm (-9223372036854775803)) (I64.wrap (-9223372036854775803)) ∧
      (I64.wrap (-9223372036854775808)).val = trio.eng.rb.val + (I64.wrap (-9223372036854775803)).val :=
  ⟨.inl ⟨rfl, rfl⟩, by decide⟩

/-- A state of each kind of run. -/
theorem witness_HaltEndsTheEngine : trio.eng.run = .inline ∧ held.eng.run = .spawned ∧ (idleBoot [99]).eng.run = .idle :=
  ⟨rfl, rfl, rfl⟩

theorem witness_OnlyHaltHalts :
    trio.eng.status = .running ∧ ∃ t, exec .halt trio = .next t ∧ t.eng.status = .halted := ⟨rfl, _, rfl, rfl⟩

theorem witness_OnlyRelativeBaseOffsetWritesRb :
    ∃ t, exec (.relativeBaseOffset (imm 1)) trio = .next t ∧ t.eng.rb ≠ trio.eng.rb := ⟨_, rfl, by decide⟩

/-- An instruction with no write parameter, and one with. -/
theorem witness_MemoryFrameOfEveryInstruction :
    trio.eng.mem.wf ∧
      ((∃ t, exec (.output (imm 1)) trio = .next t) ∧ ∀ p ∈ (Instr.output (imm 1)).slots, p.1 = .read) ∧
      ((∃ t, exec (.add (imm 1) (imm 2) (pos 5)) trio = .next t) ∧
        (SlotKind.write, pos 5) ∈ (Instr.add (imm 1) (imm 2) (pos 5)).slots ∧ WritesTo trio.cfg trio.eng (pos 5) 5) :=
  ⟨trio_operands.1, ⟨⟨_, rfl⟩, by decide⟩, ⟨_, rfl⟩, by decide, trio_operands.2.2.2.1⟩

/-- A step of the engine, and a load that shrinks the extent. -/
theorem witness_OnlyLoadShrinksTheExtent :
    (NamesCanonical (boot [1101, 1, 1, 9] []) ∧
      ∃ x t, findEngine (boot [1101, 1, 1, 9] []) 0 = some x ∧ step (boot [1101, 1, 1, 9] []) = .next t) ∧
    ∃ x t y, findEngine (withAgenda [.host (.load 0 [])] (endedBoot .halted)) 0 = some x ∧
      step (withAgenda [.host (.load 0 [])] (endedBoot .halted)) = .next t ∧ findEngine t 0 = some y ∧
      y.mem.extent < x.mem.extent :=
  ⟨⟨boot_names _ _, _, _, rfl, rfl⟩, _, _, _, rfl, rfl, rfl, by decide⟩

theorem witness_InstructionsAreIsolated :
    (∃ t, exec (.output (imm 1)) trio = .next t) ∧ trio.eng.inp ≠ some 2 ∧ trio.eng.outp ≠ some 2 :=
  ⟨⟨_, rfl⟩, by decide, by decide⟩

/-- A queue that gains a value, and one that loses its head. -/
theorem witness_QueuesAreFifo :
    (1 < (boot [104, 7] []).nextChan ∧ ∃ t, step (boot [104, 7] []) = .next t ∧ (getChannel t 1).queue = [I64.wrap 7]) ∧
      (0 < (boot [3, 5] [6]).nextChan ∧ ∃ t, step (boot [3, 5] [6]) = .next t ∧ (getChannel t 0).queue = []) :=
  ⟨⟨by decide, _, rfl, rfl⟩, by decide, _, rfl, rfl⟩

theorem witness_ParametersNeverChange : ∃ t, step (boot [99] []) = .next t := ⟨_, rfl⟩

/-- `1` is a program text. -/
theorem text_of_one : ProgramText ['1'] [I64.wrap 1] :=
  .one _ _ ⟨[], ['1'], [], by simp, by simp, .unsigned _ 1 (.one _ _ .one), rfl⟩

/-- A load of an image and a load of a text. -/
theorem witness_LoadResetsTheEngine :
    ((withAgenda [.host (.load 0 [.one])] (endedBoot .halted)).agenda = .host (.load 0 [.one]) :: [] ∧
      hostWaits (withAgenda [.host (.load 0 [.one])] (endedBoot .halted)) = false ∧
      ∃ x, findEngine (withAgenda [.host (.load 0 [.one])] (endedBoot .halted)) 0 = some x ∧ x.run = .idle) ∧
    (ProgramText ['1'] [I64.wrap 1] ∧
      (withAgenda [.host (.loadText 0 ['1'])] (endedBoot .halted)).agenda = .host (.loadText 0 ['1']) :: [] ∧
      hostWaits (withAgenda [.host (.loadText 0 ['1'])] (endedBoot .halted)) = false ∧
      ∃ x, findEngine (withAgenda [.host (.loadText 0 ['1'])] (endedBoot .halted)) 0 = some x ∧ x.run = .idle) :=
  ⟨⟨rfl, by decide, _, rfl, rfl⟩, text_of_one, rfl, by decide, _, rfl, rfl⟩

theorem witness_FirstLoadCreatesTheEngine :
    ((withAgenda [.host (.load 4 [.one])] State.reset).agenda = .host (.load 4 [.one]) :: [] ∧
      hostWaits (withAgenda [.host (.load 4 [.one])] State.reset) = false ∧
      findEngine (withAgenda [.host (.load 4 [.one])] State.reset) 4 = none) ∧
    (ProgramText ['1'] [I64.wrap 1] ∧
      (withAgenda [.host (.loadText 4 ['1'])] State.reset).agenda = .host (.loadText 4 ['1']) :: [] ∧
      hostWaits (withAgenda [.host (.loadText 4 ['1'])] State.reset) = false ∧
      findEngine (withAgenda [.host (.loadText 4 ['1'])] State.reset) 4 = none) :=
  ⟨⟨rfl, by decide, rfl⟩, text_of_one, rfl, by decide, rfl⟩

/-- `1, -20` is a program text. -/
theorem witness_ParserAcceptsExactlyTheGrammar :
    ProgramText ['1', ',', ' ', '-', '2', '0'] [I64.wrap 1, I64.wrap (-20)] := by
  have twenty : PieceText [' ', '-', '2', '0'] (I64.wrap (-20)) :=
    ⟨[' '], ['-', '2', '0'], [], by simp [IsBlank], by simp,
      .minus _ 20 (.more ['2'] 2 '0' 0 (.one _ _ .two) .zero), rfl⟩
  have one : PieceText ['1'] (I64.wrap 1) := ⟨[], ['1'], [], by simp, by simp, .unsigned _ 1 (.one _ _ .one), rfl⟩
  exact .more ['1'] [' ', '-', '2', '0'] _ _ one (.one _ _ twenty)

theorem no_digits {ds : List Char} {n : Nat} (h : DigitsText ds n) : ds ≠ [] := by
  cases h <;> simp

theorem witness_FailedParseChangesNothing :
    (withAgenda [.host (.loadText 0 [])] State.reset).agenda = .host (.loadText 0 []) :: [] ∧
      hostWaits (withAgenda [.host (.loadText 0 [])] State.reset) = false ∧
      (∀ x, findEngine (withAgenda [.host (.loadText 0 [])] State.reset) 0 = some x → x.run = .idle) ∧
      ∀ image, ¬ ProgramText [] image := by
  refine ⟨rfl, by decide, fun x hx => ?_, fun image h => ?_⟩
  · cases hx
    rfl
  · generalize ht : ([] : List Char) = text at h
    cases h with
    | one p v h =>
      obtain ⟨b, body, a, -, -, hb, rfl⟩ := h
      generalize v.val = n at hb
      cases hb with
      | unsigned ds n h => simp [no_digits h] at ht
      | plus ds n h => simp at ht
      | minus ds n h => simp at ht
    | more p r v vs h hr => simp at ht

/-- An engine inside an inline run, and a host action that is refused. -/
theorem witness_HostLeavesEnginesInsideARun :
    NamesCanonical (withAgenda [.host (.load 0 [])] (boot [99] [])) ∧
      (withAgenda [.host (.load 0 [])] (boot [99] [])).agenda = .host (.load 0 []) :: [] ∧
      (∃ t, step (withAgenda [.host (.load 0 [])] (boot [99] [])) = .next t) ∧
      ∃ x, findEngine (withAgenda [.host (.load 0 [])] (boot [99] [])) 0 = some x ∧ x.run ≠ .idle :=
  ⟨names_of_no_others rfl, rfl, ⟨_, rfl⟩, _, rfl, by decide⟩

theorem witness_HostWritesEnginesOnlyByLoad :
    NamesCanonical (withAgenda [.host (.detachInput 0)] (endedBoot .halted)) ∧
      (withAgenda [.host (.detachInput 0)] (endedBoot .halted)).agenda = .host (.detachInput 0) :: [] ∧
      (∃ t, step (withAgenda [.host (.detachInput 0)] (endedBoot .halted)) = .next t) ∧
      (∃ x, findEngine (withAgenda [.host (.detachInput 0)] (endedBoot .halted)) 0 = some x) ∧
      (∀ image, HostAction.detachInput 0 ≠ .load 0 image) ∧ ∀ text, HostAction.detachInput 0 ≠ .loadText 0 text :=
  ⟨ended_names _ _, rfl, ⟨_, rfl⟩, ⟨_, rfl⟩, nofun, nofun⟩

/-- A Running, a Halted and a Faulted engine. -/
theorem witness_RunEntersTheRunOrReturnsAtOnce :
    (NamesCanonical (withAgenda [.host (.run 0)] (idleBoot [99])) ∧
      (withAgenda [.host (.run 0)] (idleBoot [99])).agenda = .host (.run 0) :: [] ∧
      hostWaits (withAgenda [.host (.run 0)] (idleBoot [99])) = false ∧
      ∃ x, findEngine (withAgenda [.host (.run 0)] (idleBoot [99])) 0 = some x ∧ x.run = .idle ∧ x.status = .running) ∧
    (NamesCanonical (withAgenda [.host (.run 0)] (endedBoot .halted)) ∧
      hostWaits (withAgenda [.host (.run 0)] (endedBoot .halted)) = false ∧
      ∃ x, findEngine (withAgenda [.host (.run 0)] (endedBoot .halted)) 0 = some x ∧ x.run = .idle ∧ x.status = .halted) ∧
    ∃ x, findEngine (withAgenda [.host (.run 0)] (endedBoot (.faulted ⟨.noInputChannel, 0, .zero⟩))) 0 = some x ∧
      x.run = .idle ∧ x.status = .faulted ⟨.noInputChannel, 0, .zero⟩ :=
  ⟨⟨names_of_no_others rfl, rfl, by decide, _, rfl, rfl, rfl⟩, ⟨names_of_no_others rfl, by decide, _, rfl, rfl, rfl⟩, _, rfl,
   rfl, rfl⟩

theorem witness_ReadoutsReturnCellsAndStatus :
    (hostWaits (withAgenda [.host (.readMemory 0)] (idleBoot [7, 0])) = false ∧
      (withAgenda [.host (.readMemory 0)] (idleBoot [7, 0])).agenda = .host (.readMemory 0) :: [] ∧
      ∃ x, findEngine (withAgenda [.host (.readMemory 0)] (idleBoot [7, 0])) 0 = some x ∧ x.run = .idle ∧
        1 < x.mem.extent) ∧
    (hostWaits (withAgenda [.host (.readStatus 0)] (endedBoot .halted)) = false ∧
      (withAgenda [.host (.readStatus 0)] (endedBoot .halted)).agenda = .host (.readStatus 0) :: [] ∧
      ∃ x, findEngine (withAgenda [.host (.readStatus 0)] (endedBoot .halted)) 0 = some x ∧ x.run = .idle) :=
  ⟨⟨by decide, rfl, _, rfl, rfl, by decide⟩, by decide, rfl, _, rfl, rfl⟩

/-- An engine with only an outbound endpoint, channel 0, spawned. -/
def toSpawn : State :=
  withAgenda [.host (.spawn 0)] { State.reset with nextChan := 1, eng := { Engine.reset with outp := some 0 } }

theorem toSpawn_ends : EndsLive toSpawn := by
  intro x hx
  obtain rfl : x = { Engine.reset with outp := some 0 } := by simpa [allEngines, toSpawn, withAgenda, State.reset] using hx
  exact ⟨nofun, fun c hc => by cases hc; exact ⟨by decide, rfl⟩⟩

theorem witness_SpawnConnectsTheMissingSides :
    EndsLive toSpawn ∧ toSpawn.agenda = .host (.spawn 0) :: [] ∧ hostWaits toSpawn = false ∧
      ∃ x, findEngine toSpawn 0 = some x ∧ x.run = .idle ∧ x.status = .running ∧ x.inp = none ∧ x.outp = some 0 :=
  ⟨toSpawn_ends, rfl, by decide, _, rfl, rfl, rfl, rfl, rfl⟩

/-- A spawned engine with both endpoints. -/
def spawnedBoot (image : List Int) : State :=
  { boot image [] with eng := { (boot image []).eng with run := .spawned } }

/-- It ends by Halt, by a fault of its operand, and by a word that is no instruction. -/
theorem witness_SpawnedEngineDropsItsEnds :
    NamesCanonical (spawnedBoot [99]) ∧ findEngine (spawnedBoot [99]) 0 = some (spawnedBoot [99]).eng ∧
      (spawnedBoot [99]).eng.run = .spawned ∧
      (∃ t, step (spawnedBoot [99]) = .next t ∧ findEngine t 0 = some t.eng ∧ t.eng.status.Ended) ∧
      (∃ t, step (spawnedBoot [103, 0]) = .next t ∧ findEngine t 0 = some t.eng ∧ t.eng.status.Ended) ∧
      ∃ t, step (spawnedBoot [42]) = .next t ∧ findEngine t 0 = some t.eng ∧ t.eng.status.Ended :=
  ⟨names_of_no_others rfl, rfl, rfl, ⟨_, rfl, rfl, .inl rfl⟩, ⟨_, rfl, rfl, .inr ⟨_, rfl⟩⟩, _, rfl, rfl, .inr ⟨_, rfl⟩⟩

theorem witness_StepKeepsMemoriesCanonical :
    MemoriesCanonical (boot [1101, 1, 1, 9] []) ∧ ∃ t, step (boot [1101, 1, 1, 9] []) = .next t := by
  refine ⟨fun x hx => ?_, _, rfl⟩
  obtain rfl : x = (boot [1101, 1, 1, 9] []).eng := by simpa [allEngines, boot, setQueue, setChannel, State.reset] using hx
  decide

/-- The names of `toSpawn`, its channels and its ends, and the spawn as its step. -/
theorem witness_StepKeepsOwnership : OwnershipInv toSpawn ∧ ∃ t, step toSpawn = .next t := by
  refine ⟨⟨names_of_no_others rfl, by simp [ChannelsCanonical, SparseCanonical, toSpawn, withAgenda, State.reset], toSpawn_ends, fun e f x y hx hy c => ?_⟩, _, rfl⟩
  have key : ∀ g z, findEngine toSpawn g = some z → g = 0 := by
    intro g z hz
    by_contra hg
    simp [findEngine, toSpawn, withAgenda, State.reset, hg, sparseGet?] at hz
  rw [key e x hx, key f y hy]
  exact ⟨fun _ _ => rfl, fun _ _ => rfl⟩

/-- An engine inside an inline run that halts. -/
theorem witness_StepKeepsRunDiscipline : RunInv (boot [99] []) ∧ ∃ t, step (boot [99] []) = .next t := by
  refine ⟨⟨boot_names _ _, fun x hx _ => ?_, fun e f x y hx hy _ _ => ?_⟩, _, rfl⟩
  · obtain rfl : x = (boot [99] []).eng := by simpa [allEngines, boot, setQueue, setChannel, State.reset] using hx
    rfl
  · have key : ∀ g z, findEngine (boot [99] []) g = some z → g = 0 := by
      intro g z hz
      by_contra hg
      simp [findEngine, boot, setQueue, setChannel, State.reset, hg, sparseGet?] at hz
    rw [key e x hx, key f y hy]

/-- The host holds both ends of channel 1; the engine holds neither. -/
def spare (m : List Move) (q : List Int) : State :=
  withAgenda m (setQueue 1 (cellsOf q) { State.reset with nextChan := 2, eng := { Engine.reset with inp := some 0 } })

theorem spare_ownership (m : List Move) : OwnershipInv (spare m []) := by
  have key : ∀ g z, findEngine (spare m []) g = some z → g = 0 ∧ z = { Engine.reset with inp := some 0 } := by
    intro g z hz
    by_cases hg : g = 0
    · subst hg
      exact ⟨rfl, (Option.some.inj hz).symm⟩
    · simp [findEngine, spare, withAgenda, setQueue, setChannel, State.reset, hg, sparseGet?] at hz
  refine ⟨names_of_no_others rfl, ⟨?_, ?_⟩, fun x hx => ?_, fun e f x y hx hy c => ?_⟩
  · exact ⟨List.Pairwise.nil, fun p hp => absurd hp List.not_mem_nil⟩
  · exact fun p hp => absurd hp List.not_mem_nil
  · obtain rfl : x = { Engine.reset with inp := some 0 } := by
      simpa [allEngines, spare, withAgenda, setQueue, setChannel, State.reset] using hx
    refine ⟨fun c hc => ?_, fun c hc => ?_⟩
    · cases hc
      exact ⟨(by decide : 0 < 2), rfl⟩
    · cases hc
  · rw [(key e x hx).1, (key f y hy).1]
    exact ⟨fun _ _ => rfl, fun _ _ => rfl⟩

/-- A push, a pop and the two drops. -/
theorem witness_HostActsOnTheEndsItHolds :
    (hostWaits (spare [.host (.push 1 .one)] []) = false ∧ hostHoldsSend (spare [.host (.push 1 .one)] []) 1 = true ∧
      (getChannel (spare [.host (.push 1 .one)] []) 1).receiverAlive = true) ∧
    (hostWaits (spare [.host (.pop 1)] [6]) = false ∧ hostHoldsRecv (spare [.host (.pop 1)] [6]) 1 = true ∧
      (getChannel (spare [.host (.pop 1)] [6]) 1).queue = I64.wrap 6 :: []) ∧
    (hostWaits (spare [.host (.dropSend 1)] []) = false ∧ hostHoldsSend (spare [.host (.dropSend 1)] []) 1 = true) ∧
    (hostWaits (spare [.host (.dropRecv 1)] []) = false ∧ hostHoldsRecv (spare [.host (.dropRecv 1)] []) 1 = true) := by
  decide

/-- The engine holds channel 0: it gets the receive end of channel 1, gets the send end of channel 1, and is detached from its
inbound channel and from its outbound one, of which it holds none. -/
theorem witness_AttachMovesTheEndpoint :
    (OwnershipInv (spare [.host (.attachInput 0 1)] []) ∧ hostWaits (spare [.host (.attachInput 0 1)] []) = false ∧
      hostHoldsRecv (spare [.host (.attachInput 0 1)] []) 1 = true ∧
      ∃ x, findEngine (spare [.host (.attachInput 0 1)] []) 0 = some x ∧ x.run = .idle ∧ x.inp = some 0) ∧
    (OwnershipInv (spare [.host (.attachOutput 0 1)] []) ∧ hostHoldsSend (spare [.host (.attachOutput 0 1)] []) 1 = true) ∧
    (OwnershipInv (spare [.host (.detachInput 0)] []) ∧ hostWaits (spare [.host (.detachInput 0)] []) = false) ∧
    (OwnershipInv (spare [.host (.detachOutput 0)] []) ∧ hostWaits (spare [.host (.detachOutput 0)] []) = false) :=
  ⟨⟨spare_ownership _, by decide, by decide, _, rfl, rfl, rfl⟩, ⟨spare_ownership _, by decide⟩,
   ⟨spare_ownership _, by decide⟩, spare_ownership _, by decide⟩

theorem witness_CreatedChannelIsHeldByTheHost :
    OwnershipInv (spare [.host .newChannel] []) ∧ (spare [.host .newChannel] []).agenda = .host .newChannel :: [] ∧
      hostWaits (spare [.host .newChannel] []) = false := ⟨spare_ownership _, rfl, by decide⟩

/-- During an inline run; a pop of an empty queue; a load of a spawned engine; and a run of a name that no engine has. -/
theorem witness_RefusedActionsChangeNothing :
    hostWaits (withAgenda [.host .newChannel] (boot [99] [])) = true ∧
      HostAction.LacksChannel (spare [.host (.pop 1)] []) (.pop 1) ∧
      (HostAction.needsIdle (.load 0 []) = some 0 ∧ ∃ x, findEngine held 0 = some x ∧ x.run ≠ .idle) ∧
      (HostAction.needsIdle (.run 4) = some 4 ∧ findEngine State.reset 4 = none ∧
        (∀ image, HostAction.run 4 ≠ .load 4 image) ∧ ∀ text, HostAction.run 4 ≠ .loadText 4 text) :=
  ⟨by decide, .inr rfl, ⟨rfl, _, rfl, by decide⟩, rfl, rfl, nofun, nofun⟩

end Sys2Proof.Machine.Tests
end

section
/-! PROOF. Family 30_encoding.md: the opcode word, the length of an instruction, and the two pseudo-instructions. -/

namespace Sys2Proof

/-! ### The opcode word -/

/-- The two low decimal digits of a number are the number modulo 100 (30_encoding.md R50). -/
theorem opcodeOf_eq_mod (w : Nat) : opcodeOf w = w % 100 := by
  simp only [opcodeOf, digit]
  omega

theorem decode_of_neg {w : I64} (h : w.val < 0) (raw : Nat → I64) : decode w raw = .error (.negativeWord w) :=
  if_pos h

/-- A word decodes exactly when it is not negative and its opcode is in the opcode map. -/
theorem decode_eq_ok_iff {w : I64} {raw : Nat → I64} {i : Instr} :
    decode w raw = .ok i ↔
      0 ≤ w.val ∧ instrOfOpcode (slotOperand w.val.toNat raw) (opcodeOf w.val.toNat) = some i := by
  by_cases hw : w.val < 0
  · simp [decode_of_neg hw, hw]
  · cases hi : instrOfOpcode (slotOperand w.val.toNat raw) (opcodeOf w.val.toNat) <;>
      simp [decode, hw, hi, Int.not_lt.1 hw]

/-- Words that are not negative and agree modulo 100 have the same opcode. -/
theorem opcodeOf_congr {v w : I64} (hv : 0 ≤ v.val) (hw : 0 ≤ w.val) (h : v.val % 100 = w.val % 100) :
    opcodeOf v.val.toNat = opcodeOf w.val.toNat := by
  rw [opcodeOf_eq_mod, opcodeOf_eq_mod]
  omega

/-- Of the word, a slot reads only its own mode digit (30_encoding.md R51). -/
theorem slotOperand_congr {v w k : Nat} (raw : Nat → I64) (h : digit v (2 + k) = digit w (2 + k)) :
    slotOperand v raw k = slotOperand w raw k := by
  simp only [slotOperand, modeAt, h]

/-- The opcode map takes no operand but those of the slots the operation has. -/
theorem instrOfOpcode_congr {slot slot' : Nat → Operand} {c : Nat} {i : Instr} (h : instrOfOpcode slot c = some i)
    (hs : ∀ k, k < i.slots.length → slot k = slot' k) : instrOfOpcode slot' c = some i := by
  unfold instrOfOpcode at h
  split at h <;> cases h
  all_goals
    simp only [Instr.slots, List.length_cons, List.length_nil] at hs
    simp [instrOfOpcode, hs]

/-! ### The length -/

theorem length_eq_slots_length_add_one (i : Instr) : i.length = i.slots.length + 1 := by
  cases i <;> rfl

end Sys2Proof

namespace Sys2Proof.Machine

/-! ### The faults of an instruction of format F3 -/

/-- No slot reports an overflow. -/
theorem slotFault_ne_arithmeticOverflow {cfg : Config} {x : Engine} {k : Nat} {p : SlotKind × Operand} {f : FaultCause}
    (h : SlotFault cfg x k p f) (r : Int) : f ≠ .arithmeticOverflow r := by
  rcases h with ⟨_, _, rfl⟩ | ⟨_, _, rfl⟩ | ⟨_, _, _, rfl⟩ | ⟨_, _, _, _, _, _, rfl⟩ <;> exact nofun

theorem slotFault_of_resolveTwo {x : Engine} {a b : Operand} {f : FaultCause} (cfg : Config)
    (h : resolveTwo x a b = .error f) : ∃ k p, SlotFault cfg x k p f := by
  simp only [resolveTwo] at h
  split at h
  · rename_i ha
    cases h
    exact ⟨0, _, resolveRead_error.1 ha⟩
  · split at h <;> cases h
    rename_i hb
    exact ⟨1, _, resolveRead_error.1 hb⟩

theorem slotFault_of_resolveThree {cfg : Config} {x : Engine} {a b out : Operand} {f : FaultCause}
    (h : resolveThree cfg x a b out = .error f) : ∃ k p, SlotFault cfg x k p f := by
  simp only [resolveThree] at h
  split at h
  · rename_i hab
    cases h
    exact slotFault_of_resolveTwo cfg hab
  · split at h <;> cases h
    rename_i hout
    exact ⟨2, _, resolveWrite_error.1 hout⟩

theorem readsAs_of_resolveThree {cfg : Config} {x : Engine} {a b out : Operand} {p q : ReadParam} {w : WriteParam}
    (h : resolveThree cfg x a b out = .ok (p, q, w)) : ReadsAs x a p.val ∧ ReadsAs x b q.val := by
  simp only [resolveThree] at h
  split at h
  · cases h
  · rename_i hab
    split at h <;> cases h
    exact resolveTwo_ok hab

/-- An F3 instruction raises the fault of a slot, raises what its computation raises for the values read, or writes one
cell and advances by 4. -/
theorem computeAndStore_outcomes {compute : I64 → I64 → Except FaultCause I64} {a b out : Operand} {s t : State}
    (h : computeAndStore compute a b out s = .next t) :
    (∃ f k p, SlotFault s.cfg s.eng k p f ∧ t = raiseFault f s) ∨
      (∃ u v f, ReadsAs s.eng a u ∧ ReadsAs s.eng b v ∧ compute u v = .error f ∧ t = raiseFault f s) ∨
      ∃ d r, t = advance 4 (storeCell d r s) := by
  cases hres : resolveThree s.cfg s.eng a b out with
  | error f =>
    obtain ⟨k, p, hf⟩ := slotFault_of_resolveThree hres
    simp only [computeAndStore, hres] at h
    cases h
    exact .inl ⟨f, k, p, hf, rfl⟩
  | ok params =>
    obtain ⟨p, q, w⟩ := params
    obtain ⟨ha, hb⟩ := readsAs_of_resolveThree hres
    simp only [computeAndStore, hres] at h
    cases hr : compute p.val q.val with
    | error f =>
      simp only [hr] at h
      cases h
      exact .inr (.inl ⟨_, _, f, ha, hb, hr, rfl⟩)
    | ok r =>
      simp only [hr] at h
      cases h
      exact .inr (.inr ⟨w.addr, r, rfl⟩)

/-! ### The pseudo-instructions (30_encoding.md R69) -/

theorem readsAs_immediate (x : Engine) (v : I64) : ReadsAs x ⟨.immediate, v⟩ v := .inl ⟨rfl, rfl⟩

theorem eq_of_readsAs_immediate {x : Engine} {v u : I64} (h : ReadsAs x ⟨.immediate, v⟩ u) : u = v := by
  simpa [ReadsAs, formedAddress] using h

/-- A sum with 0 is the value itself, under both overflow policies. -/
theorem fit_add_zero (cfg : Config) (u : I64) : fit cfg (u.val + I64.zero.val) = .ok u :=
  fit_inRange (Int.add_zero u.val).symm

theorem exec_pseudoMov (src dst : Operand) (s : State) :
    exec (pseudoMov src dst) s =
      computeAndStore (fun x y => fit s.cfg (x.val + y.val)) src ⟨.immediate, .zero⟩ dst s := rfl

theorem exec_pseudoMov_of_operands {s : State} {src dst : Operand} {u : I64} {d : Nat} (hu : ReadsAs s.eng src u)
    (hd : WritesTo s.cfg s.eng dst d) : exec (pseudoMov src dst) s = .next (advance 4 (storeCell d u s)) := by
  rw [exec_pseudoMov, computeAndStore_of_operands hu (readsAs_immediate s.eng .zero) hd]
  simp only [fit_add_zero]

/-- A copy raises no fault but that of a slot: what it computes always fits. -/
theorem exec_pseudoMov_outcomes {s t : State} {src dst : Operand} (h : exec (pseudoMov src dst) s = .next t) :
    (∃ f k p, SlotFault s.cfg s.eng k p f ∧ t = raiseFault f s) ∨ ∃ d r, t = advance 4 (storeCell d r s) := by
  rw [exec_pseudoMov] at h
  rcases computeAndStore_outcomes h with hslot | ⟨u, v, f, -, hv, hfit, -⟩ | hdone
  · exact .inl hslot
  · rw [eq_of_readsAs_immediate hv, fit_add_zero] at hfit
    cases hfit
  · exact .inr hdone

theorem exec_pseudoMov_never_overflows {s t : State} {src dst : Operand} {f : FaultRecord}
    (hs : s.eng.status = .running) (h : exec (pseudoMov src dst) s = .next t) (hf : t.eng.status = .faulted f) (r : Int) :
    f.cause ≠ .arithmeticOverflow r := by
  rcases exec_pseudoMov_outcomes h with ⟨g, k, p, hg, rfl⟩ | ⟨d, v, rfl⟩
  · obtain rfl : recordOf g s.eng = f := Status.faulted.inj ((takesFault_raiseFault g s).1.symm.trans hf)
    exact slotFault_ne_arithmeticOverflow hg r
  · rw [advance_eng_status, storeCell_eng_status, hs] at hf
    cases hf

/-- The test of `jmp` is the constant 1, so its jump is taken: what follows is what the target is checked for. -/
theorem exec_pseudoJmp_of_target {s : State} {target : Operand} {u : I64} (hu : ReadsAs s.eng target u) :
    (∀ n : Nat, u.val = n → exec (pseudoJmp target) s = .next (jumpTo n s)) ∧
      (u.val < 0 → exec (pseudoJmp target) s = .next (raiseFault (.negativeAddress 1 u.val) s)) := by
  have hjump := jumpWhen_of_operands (taken := testTrue) (readsAs_immediate s.eng .one) hu
  rw [if_pos (by decide)] at hjump
  constructor
  · intro n hn
    rw [checkAddress_ok.2 hn] at hjump
    exact hjump
  · intro hneg
    rw [checkAddress_error.2 ⟨hneg, rfl⟩] at hjump
    exact hjump

/-! ### The obligations -/

/-- Settles O3: the two low digits by arithmetic on the number, and the check of the sign before any opcode is read. -/
theorem opcodeIsWordModHundred : Obligations.OpcodeIsWordModHundred :=
  ⟨fun w => ⟨rfl, opcodeOf_eq_mod w⟩, fun _ raw h => decode_of_neg h raw⟩

/-- Settles O5: the two words have the same opcode, and the opcode map takes only operands on which they agree. -/
theorem unusedDigitsAreIgnored : Obligations.UnusedDigitsAreIgnored := by
  refine ⟨fun v w raw i hv hw hmod hdigits h => ?_, fun raw => ⟨rfl, rfl, rfl, rfl, rfl⟩⟩
  obtain ⟨-, hi⟩ := decode_eq_ok_iff.1 h
  rw [opcodeOf_congr hv hw hmod] at hi
  exact decode_eq_ok_iff.2 ⟨hw, instrOfOpcode_congr hi fun k hk => slotOperand_congr raw (hdigits k hk)⟩

/-- Settles O6, by cases on the operation. -/
theorem lengthIsSlotsPlusOne : Obligations.LengthIsSlotsPlusOne := by
  refine fun i => ⟨length_eq_slots_length_add_one i, ?_⟩
  cases i <;> simp [Instr.length, Instr.opcode]

/-- Settles O20: `jmp` by its constant test and the check of its target, `mov` by the sum with 0, which always fits. -/
theorem pseudoInstructionsJumpAndCopy : Obligations.PseudoInstructionsJumpAndCopy := by
  intro s src dst u d hwf hu
  obtain ⟨hjump, hneg⟩ := exec_pseudoJmp_of_target hu
  refine ⟨rfl, rfl, fun n hn => ⟨_, hjump n hn, jumpTo_eng_ip n s⟩, fun hlt => ?_, fun hd => ?_, ?_⟩
  · obtain ⟨hstatus, hsame, -, hqueue, hself, hothers, hcfg, -⟩ :=
      takesFault_raiseFault (.negativeAddress 1 u.val) s
    exact ⟨_, 1, hneg hlt, hstatus, hsame, hqueue, hself, hothers, hcfg⟩
  · exact ⟨_, exec_pseudoMov_of_operands hu hd, storedAt_memWrite hwf d u, rfl, rfl⟩
  · exact fun t f r hs h hf => exec_pseudoMov_never_overflows hs h hf r

end Sys2Proof.Machine
end

section
/-! PROOF. Family 40_engine.md: the status, memory, `ip` and `rb` of an engine that has ended, over every step. -/

namespace Sys2Proof.Machine

/-! ### What a host action leaves of an engine -/

/-- In `t` the engine named `e` has the status, the memory, the `ip` and the `rb` of `x`; its endpoints and whether it is
inside a run are left open. -/
def KeepsEngine (t : State) (e : EngineId) (x : Engine) : Prop :=
  ∃ y, findEngine t e = some y ∧ y.status = x.status ∧ SameRegistersAndMemory x y

/-- The action is a load of the engine named `e`, of an image or of a text. -/
def HostAction.Loads (a : HostAction) (e : EngineId) : Prop := (∃ image, a = .load e image) ∨ ∃ text, a = .loadText e text

theorem keepsEngine_of_findEngine {t : State} {e : EngineId} {x : Engine} (h : findEngine t e = some x) :
    KeepsEngine t e x := ⟨x, h, rfl, rfl, rfl, rfl⟩

/-- Every engine is kept where the engine `z`, named `f`, is replaced by one that agrees with it. -/
theorem keepsEngine_setEngine {s : State} {e f : EngineId} {x y z : Engine} (hx : findEngine s e = some x)
    (hz : findEngine s f = some z) (hstatus : y.status = z.status) (hsame : SameRegistersAndMemory z y) :
    KeepsEngine (setEngine f y s) e x := by
  by_cases he : e = f
  · subst he
    obtain rfl : z = x := Option.some.inj (hz.symm.trans hx)
    exact ⟨y, findEngine_setEngine_same e y s, hstatus, hsame⟩
  · exact keepsEngine_of_findEngine ((findEngine_setEngine_ne y s he).trans hx)

/-- A spawn keeps every engine, the one it starts too: if that one has ended, it ends again with the status it had. -/
theorem keepsEngine_startSpawned {s : State} {e f : EngineId} {x y z : Engine} (hx : findEngine s e = some x)
    (hz : findEngine s f = some z) (hstatus : y.status = z.status) (hsame : SameRegistersAndMemory z y) :
    KeepsEngine (startSpawned f y s) e x := by
  have ends : KeepsEngine (setEngine f (endedEngine y.status y) (releaseEnds y s)) e x :=
    keepsEngine_setEngine (z := z) (by rwa [findEngine_releaseEnds]) (by rwa [findEngine_releaseEnds])
      (by rwa [endedEngine_status]) (by simpa [SameRegistersAndMemory] using hsame)
  unfold startSpawned
  split
  · exact keepsEngine_setEngine hx hz hstatus hsame
  · exact ends
  · exact ends

/-- A load keeps every engine but the one it loads, which still exists. -/
theorem keepsEngine_load {s : State} {e f : EngineId} {x y : Engine} {a : HostAction} (ha : a.Loads f)
    (hx : findEngine s e = some x) :
    KeepsEngine (setEngine f y s) e x ∨ a.Loads e ∧ ∃ z, findEngine (setEngine f y s) e = some z := by
  by_cases he : e = f
  · subst he
    exact .inr ⟨ha, y, findEngine_setEngine_same e y s⟩
  · exact .inl (keepsEngine_of_findEngine ((findEngine_setEngine_ne y s he).trans hx))

/-- A host action keeps every engine, in whatever status, but the one it loads (60_exceptions.md R105). -/
theorem hostEffect_keepsEngine {s t : State} {a : HostAction} {e : EngineId} {x : Engine} (h : HostEffect s a t)
    (hn : NamesCanonical s) (hx : findEngine s e = some x) :
    KeepsEngine t e x ∨ a.Loads e ∧ ∃ y, findEngine t e = some y := by
  cases h with
  | answer | newChannel | push | pop | dropSend | dropRecv => exact .inl (keepsEngine_of_findEngine hx)
  | load _ f image _ ha => exact keepsEngine_load (ha.imp (⟨image, ·⟩) id) hx
  | firstLoad _ f image ha => exact keepsEngine_load (ha.imp (⟨image, ·⟩) id) hx
  | attachInput f c z hz | attachOutput f c z hz | detachInput f z hz | detachOutput f z hz =>
    exact .inl (keepsEngine_setEngine hx hz rfl ⟨rfl, rfl, rfl⟩)
  | run f z u _ _ _ hu =>
    obtain ⟨-, -, hfind, -⟩ := selectEngine_cases hn hu
    have hset : { u with eng := { u.eng with run := .inline } } = setEngine u.self { u.eng with run := .inline } u := by
      simp [setEngine]
    rw [hset]
    exact .inl (keepsEngine_setEngine ((hfind e).trans hx) (findEngine_self u) rfl ⟨rfl, rfl, rfl⟩)
  | spawn f z r hz =>
    exact .inl (keepsEngine_startSpawned (z := z) (by simpa using hx) (by simpa using hz) rfl ⟨rfl, rfl, rfl⟩)

/-! ### What a turn leaves of an engine that has ended -/

theorem Status.Ended.ne_running {st : Status} (h : st.Ended) : st ≠ .running := by
  rcases h with rfl | ⟨f, rfl⟩ <;> exact nofun

/-- The step of an engine that was given the turn is not that of an ended one, so it leaves that one as it is. -/
theorem findEngine_of_turn {s t u : State} {e f : EngineId} {x : Engine} {i : Instr} (hn : NamesCanonical s)
    (hx : findEngine s e = some x) (hended : x.status.Ended) (hu : selectEngine f s = some u) (h : Effect u i t)
    (hrunning : u.eng.status = .running) : findEngine t e = some x := by
  obtain ⟨-, -, hfind, -⟩ := selectEngine_cases hn hu
  have hxu : findEngine u e = some x := (hfind e).trans hx
  have hne : e ≠ u.self := by
    rintro rfl
    obtain rfl : u.eng = x := Option.some.inj ((findEngine_self u).symm.trans hxu)
    exact hended.ne_running hrunning
  exact (effect_findEngine h hne).trans hxu

/-! ### The obligation -/

/-- Settles O15, by the three kinds of step: one that moves no engine, the turn of an engine, which is a Running one, and a
host action, which keeps every engine that it does not load. -/
theorem onlyLoadLeavesEndedStatus : Obligations.OnlyLoadLeavesEndedStatus := by
  intro s t e x hn hx hended h
  rcases step_cases h with ⟨r, n, rfl⟩ | ⟨f, r, n, u, i, hu, heffect, hrunning, -⟩ | ⟨a, r, hagenda, rfl⟩
  · exact ⟨x, hx, .inl ⟨rfl, rfl, rfl, rfl⟩⟩
  · have hkept := findEngine_of_turn (s := { s with agenda := r, choices := n }) hn hx hended hu heffect hrunning
    exact ⟨x, hkept, .inl ⟨rfl, rfl, rfl, rfl⟩⟩
  · have hact := hostEffect_hostAct a { s with agenda := r }
    rcases hostEffect_keepsEngine hact hn hx with ⟨y, hy, hkept⟩ | ⟨hload, y, hy⟩
    · exact ⟨y, hy, .inl hkept⟩
    · rcases hload with ⟨image, rfl⟩ | ⟨text, rfl⟩
      · exact ⟨y, hy, .inr ⟨r, .inl ⟨image, hagenda⟩⟩⟩
      · exact ⟨y, hy, .inr ⟨r, .inr ⟨text, hagenda⟩⟩⟩

end Sys2Proof.Machine
end

section
/-! PROOF. Family 42_io.md: Input that takes a value and Output that sends one. -/

namespace Sys2Proof.Machine

/-! ### The queue of one channel -/

/-- Whatever becomes of the engine that has the turn, setting the queue of a channel leaves the two ends of that channel
and every other channel. -/
theorem sameOutsideButQueue_setQueue (s : State) (c : ChannelId) (q : List I64) (x : Engine) :
    SameOutsideButQueue s { setQueue c q s with eng := x } c q :=
  ⟨rfl, rfl, rfl, rfl, rfl, rfl, rfl, getChannel_setChannel_same c _ s, fun _ hd => getChannel_setChannel_ne _ s hd⟩

/-! ### What Input and Output do when nothing stops them -/

/-- Input on a queue that is not empty, whatever the sender does (42_io.md R83). -/
theorem execInput_of_head {s : State} {out : Operand} {c : ChannelId} {v : I64} {rest : List I64} {d : Nat}
    (hd : WritesTo s.cfg s.eng out d) (hc : s.eng.inp = some c) (hq : (getChannel s c).queue = v :: rest) :
    execInput out s = .next (advance 2 (storeCell d v (setQueue c rest s))) := by
  obtain ⟨w, hw, rfl⟩ := resolveWrite_of_writesTo 0 hd
  simp only [execInput, hw, hc, hq]

/-- Output to a live receiver, however long the queue (42_io.md R84). -/
theorem execOutput_of_receiver {s : State} {a : Operand} {c : ChannelId} {v : I64} (hv : ReadsAs s.eng a v)
    (hc : s.eng.outp = some c) (hr : (getChannel s c).receiverAlive = true) :
    execOutput a s = .next (advance 2 (setQueue c ((getChannel s c).queue ++ [v]) s)) := by
  obtain ⟨p, hp, rfl⟩ := resolveRead_of_readsAs 0 hv
  simp only [execOutput, hp, hc, hr, if_true]

/-! ### The obligations -/

/-- Settles O24: the operand resolves and the queue has a head, so nothing is asked of the sender. -/
theorem inputTakesTheHead : Obligations.InputTakesTheHead := by
  intro s out c v rest d hwf hd hc hq
  have hexec : exec (.input out) s = .next (advance 2 (storeCell d v (setQueue c rest s))) := execInput_of_head hd hc hq
  exact ⟨_, hexec, storedAt_memWrite hwf d v, rfl, ⟨rfl, rfl, rfl, rfl, rfl⟩, sameOutsideButQueue_setQueue s c rest _⟩

/-- Settles O28: the operand resolves and the receiver is alive; the length of the queue is not read. -/
theorem outputAppendsItsValue : Obligations.OutputAppendsItsValue := by
  intro s a c v hv hc hr
  have hexec : exec (.output a) s = .next (advance 2 (setQueue c ((getChannel s c).queue ++ [v]) s)) :=
    execOutput_of_receiver hv hc hr
  exact ⟨_, hexec, rfl, rfl, ⟨rfl, rfl, rfl, rfl, rfl⟩, sameOutsideButQueue_setQueue s c _ _⟩

end Sys2Proof.Machine
end

section
/-! PROOF. Family 60_exceptions.md: which steps leave an engine Faulted, what such a step keeps, and what it records. -/

namespace Sys2Proof.Machine

/-! ### A host action faults no engine -/

/-- A load leaves every Running engine Running: the one it loads starts Running (70_reset_and_hazards.md R113), and it
touches no other. -/
theorem running_of_setEngine_loadedEngine {s : State} {e f : EngineId} {image : List I64} {x y z : Engine}
    (hx : findEngine s e = some x) (hrunning : x.status = .running)
    (hy : findEngine (setEngine f (loadedEngine image z) s) e = some y) : y.status = .running := by
  by_cases he : e = f
  · subst he
    rw [findEngine_setEngine_same] at hy
    cases hy
    rfl
  · rw [findEngine_setEngine_ne _ _ he, hx] at hy
    cases hy
    exact hrunning

/-- A Running engine is Running after every host action. -/
theorem hostEffect_running {s t : State} {a : HostAction} {e : EngineId} {x y : Engine} (h : HostEffect s a t)
    (hn : NamesCanonical s) (hx : findEngine s e = some x) (hrunning : x.status = .running)
    (hy : findEngine t e = some y) : y.status = .running := by
  rcases hostEffect_keepsEngine h hn hx with ⟨z, hz, hstatus, -⟩ | ⟨hload, -⟩
  · obtain rfl : z = y := Option.some.inj (hz.symm.trans hy)
    exact hstatus.trans hrunning
  · rcases hload with ⟨image, rfl⟩ | ⟨text, rfl⟩ <;> cases h with
    | answer => exact Option.some.inj (hx.symm.trans hy) ▸ hrunning
    | load | firstLoad => exact running_of_setEngine_loadedEngine hx hrunning hy

/-! ### A turn faults no engine but its own -/

/-- Taking a move off the agenda, or noting a free choice, and then selecting an engine gives that engine the turn. -/
theorem givesTurn_of_selectEngine {s u : State} {e : EngineId} {r : List Move} {n : Nat} (hn : NamesCanonical s)
    (hu : selectEngine e { s with agenda := r, choices := n } = some u) : GivesTurn s u u.self u.eng r := by
  obtain ⟨-, -, hfind, -, hcfg, hchans, hnext, hagenda, -, hreplies⟩ :=
    selectEngine_cases (s := { s with agenda := r, choices := n }) hn hu
  exact ⟨rfl, rfl, hagenda, hchans, hnext, hcfg, hreplies, hfind⟩

theorem GivesTurn.findEngine_eq {s u : State} {e : EngineId} {x : Engine} {r : List Move} (h : GivesTurn s u e x r)
    (f : EngineId) : findEngine u f = findEngine s f := by
  obtain ⟨-, -, -, -, -, -, -, hfind⟩ := h
  exact hfind f

/-- An engine that was Running before a turn and is Faulted after it is the one that had the turn. -/
theorem effect_faulted_is_self {u t : State} {i : Instr} {e : EngineId} {x y : Engine} {f : FaultRecord}
    (h : Effect u i t) (hx : findEngine u e = some x) (hrunning : x.status = .running) (hy : findEngine t e = some y)
    (hf : y.status = .faulted f) : e = u.self := by
  by_contra hne
  rw [effect_findEngine h hne, hx] at hy
  cases hy
  rw [hrunning] at hf
  cases hf

/-- Whatever moves, an engine that is Running before a step and Faulted after it had the turn and took a fault
(60_exceptions.md R97). -/
theorem step_takesFault {s t : State} {e : EngineId} {x y : Engine} {f : FaultRecord} (hn : NamesCanonical s)
    (hx : findEngine s e = some x) (hrunning : x.status = .running) (h : step s = .next t)
    (hy : findEngine t e = some y) (hf : y.status = .faulted f) :
    ∃ u r c, GivesTurn s u e x r ∧ TakesFault u t c ∧ t.eng = y := by
  rcases step_cases h with ⟨r, n, rfl⟩ | ⟨g, r, n, u, i, hu, heffect, -, -⟩ | ⟨a, r, -, rfl⟩
  · obtain rfl : x = y := Option.some.inj (hx.symm.trans hy)
    rw [hrunning] at hf
    cases hf
  · have hturn := givesTurn_of_selectEngine hn hu
    have hxu : findEngine u e = some x := (hturn.findEngine_eq e).trans hx
    obtain rfl : e = u.self := effect_faulted_is_self heffect hxu hrunning hy hf
    obtain rfl : u.eng = x := Option.some.inj ((findEngine_self u).symm.trans hxu)
    obtain ⟨hself, -⟩ := effect_frame heffect
    rw [← hself] at hy
    obtain rfl : t.eng = y := Option.some.inj ((findEngine_self t).symm.trans hy)
    obtain ⟨c, rfl⟩ := effect_faulted heffect hrunning hf
    exact ⟨u, r, c, hturn, takesFault_raiseFault c u, rfl⟩
  · have hact := hostEffect_hostAct a { s with agenda := r }
    rw [hostEffect_running hact hn hx hrunning hy] at hf
    cases hf

/-! ### The obligations -/

theorem FaultCause.code_bounds (c : FaultCause) : 1 ≤ c.code ∧ c.code ≤ 9 := by
  cases c <;> simp [FaultCause.code]

/-- Settles O12: the step takes a fault, which keeps the engine's registers and memory and every queue. -/
theorem faultsArePrecise : Obligations.FaultsArePrecise := by
  intro s t e x y f hn hx hrunning h hy hf
  obtain ⟨u, r, c, hturn, hfault, rfl⟩ := step_takesFault hn hx hrunning h hy hf
  obtain ⟨-, rfl, -, hchans, -⟩ := hturn
  obtain ⟨-, hsame, -, hqueue, -⟩ := hfault
  have hchannel (d : ChannelId) : getChannel u d = getChannel s d := by simp only [getChannel, hchans]
  exact ⟨hsame, fun d => (hqueue d).trans (congrArg Channel.queue (hchannel d))⟩

/-- Settles O13: the status the step leaves is the record of the fault it takes, and an inline run answers that record. -/
theorem faultRecordNamesItsInstruction : Obligations.FaultRecordNamesItsInstruction := by
  refine ⟨⟨fun _ => rfl, fun _ => rfl, fun _ _ => rfl, rfl, rfl, fun _ => rfl, fun _ _ => rfl, fun _ => rfl, fun _ => rfl⟩,
    ?_⟩
  intro s t e x y f hn hx hrunning h hy hf
  obtain ⟨u, r, c, hturn, hfault, rfl⟩ := step_takesFault hn hx hrunning h hy hf
  obtain ⟨rfl, rfl, -, -, -, -, hreplies, -⟩ := hturn
  obtain ⟨hstatus, -, -, -, -, -, -, -, -, -, hanswer, -⟩ := hfault
  obtain rfl : recordOf c u.eng = f := Status.faulted.inj (hstatus.symm.trans hf)
  obtain ⟨hone, hnine⟩ := c.code_bounds
  refine ⟨hone, hnine, rfl, rfl, fun hinline => ?_⟩
  rw [hanswer, if_pos hinline, hreplies]

end Sys2Proof.Machine
end

section
/-! PROOF. Family 70_reset_and_hazards.md: the parser against the grammar of the program text, and the loads of the host. -/

namespace Sys2Proof.Machine

/-! ### Spaces, signs and digits around a number -/

/-- A class of characters that holds on `front` and stops at the head of `back` cuts the two apart. -/
theorem takeWhile_dropWhile_append {p : Char → Bool} {front back : List Char} (hfront : ∀ c ∈ front, p c = true)
    (hback : ∀ c, back.head? = some c → p c = false) :
    (front ++ back).takeWhile p = front ∧ (front ++ back).dropWhile p = back := by
  rw [List.takeWhile_append_of_pos hfront, List.dropWhile_append_of_pos hfront]
  cases back with
  | nil => simp
  | cons c back => simp [hback c rfl]

theorem isDigit_eq_false_of_isBlank {c : Char} (h : IsBlank c) : isDigit c = false := by
  rcases h with rfl | rfl | rfl | rfl <;> decide

theorem isDigit_of_mem_digitsText {ds : List Char} {n : Nat} (h : DigitsText ds n) {c : Char} (hc : c ∈ ds) :
    isDigit c = true := by
  obtain ⟨-, hdigits, -⟩ := digitsText_iff.1 h
  exact hdigits c hc

/-- An integer is written with digits and signs alone. -/
theorem mem_intText {body : List Char} {z : Int} (h : IntText body z) {c : Char} (hc : c ∈ body) :
    isDigit c = true ∨ c = '+' ∨ c = '-' := by
  cases h with
  | unsigned ds n hds => exact .inl (isDigit_of_mem_digitsText hds hc)
  | plus ds n hds =>
    rcases List.mem_cons.1 hc with rfl | hc
    · exact .inr (.inl rfl)
    · exact .inl (isDigit_of_mem_digitsText hds hc)
  | minus ds n hds =>
    rcases List.mem_cons.1 hc with rfl | hc
    · exact .inr (.inr rfl)
    · exact .inl (isDigit_of_mem_digitsText hds hc)

theorem intText_ne_nil {body : List Char} {z : Int} (h : IntText body z) : body ≠ [] := by
  cases h with
  | unsigned ds n hds => exact (digitsText_iff.1 hds).1
  | plus | minus => exact List.cons_ne_nil _ _

theorem isSpace_eq_false_of_mem_intText {body : List Char} {z : Int} (h : IntText body z) {c : Char} (hc : c ∈ body) :
    isSpace c = false := by
  rcases mem_intText h hc with hdigit | rfl | rfl
  · refine Bool.eq_false_iff.2 fun hspace => ?_
    rw [isDigit_eq_false_of_isBlank (isSpace_iff.1 hspace)] at hdigit
    cases hdigit
  · decide
  · decide

/-- The number that a sign and the value of its digits give. -/
def signedValue (negative : Bool) (n : Nat) : Int := if negative then -(n : Int) else n

/-- What stands before the text that `parseSign` leaves is a sign of the grammar, or nothing. -/
theorem intText_of_parseSign {t u : List Char} {negative : Bool} (h : parseSign t = (negative, u)) :
    ∃ sign, t = sign ++ u ∧ ∀ ds n, DigitsText ds n → IntText (sign ++ ds) (signedValue negative n) := by
  unfold parseSign at h
  split at h <;> cases h
  · exact ⟨['+'], rfl, .plus⟩
  · exact ⟨['-'], rfl, .minus⟩
  · exact ⟨[], rfl, .unsigned⟩

theorem parseSign_of_isDigit {c : Char} (h : isDigit c = true) (t : List Char) :
    parseSign (c :: t) = (false, c :: t) := by
  have hplus : c ≠ '+' := ne_of_apply_ne isDigit (by rw [h]; decide)
  have hminus : c ≠ '-' := ne_of_apply_ne isDigit (by rw [h]; decide)
  simp [parseSign, hplus, hminus]

/-- `parseSign` reads the sign of an integer whatever follows it, and leaves its digits. -/
theorem parseSign_of_intText {body : List Char} {z : Int} (h : IntText body z) :
    ∃ negative ds n, DigitsText ds n ∧ z = signedValue negative n ∧
      ∀ after, parseSign (body ++ after) = (negative, ds ++ after) := by
  cases h with
  | unsigned ds n hds =>
    refine ⟨false, _, n, hds, rfl, fun after => ?_⟩
    obtain ⟨hne, hdigits, -⟩ := digitsText_iff.1 hds
    obtain ⟨c, cs, rfl⟩ := List.exists_cons_of_ne_nil hne
    exact parseSign_of_isDigit (hdigits c List.mem_cons_self) _
  | plus ds n hds => exact ⟨false, ds, n, hds, rfl, fun _ => rfl⟩
  | minus ds n hds => exact ⟨true, ds, n, hds, rfl, fun _ => rfl⟩

/-! ### One piece -/

/-- What the parser has found where it answers a value for a piece: nonempty digits after the sign, and spaces alone after
them. -/
theorem parsePiece_eq_some_iff {piece : List Char} {v : I64} :
    parsePiece piece = some v ↔
      ∃ negative u, parseSign (piece.dropWhile isSpace) = (negative, u) ∧ u.takeWhile isDigit ≠ [] ∧
        (u.dropWhile isDigit).all isSpace = true ∧
        v.val = signedValue negative (digitsValue (u.takeWhile isDigit)) := by
  rcases hsign : parseSign (piece.dropWhile isSpace) with ⟨negative, u⟩
  simp [parsePiece, signedValue, hsign, ofInt?_some]

theorem pieceText_of_parsePiece {piece : List Char} {v : I64} (h : parsePiece piece = some v) : PieceText piece v := by
  obtain ⟨negative, u, hsign, hne, hafter, hv⟩ := parsePiece_eq_some_iff.1 h
  obtain ⟨sign, hrest, hint⟩ := intText_of_parseSign hsign
  have hdigits : DigitsText (u.takeWhile isDigit) (digitsValue (u.takeWhile isDigit)) :=
    digitsText_iff.2 ⟨hne, fun _ hc => List.mem_takeWhile_imp hc, rfl⟩
  refine ⟨piece.takeWhile isSpace, sign ++ u.takeWhile isDigit, u.dropWhile isDigit,
    fun c hc => isSpace_iff.1 (List.mem_takeWhile_imp hc), fun c hc => isSpace_iff.1 (List.all_eq_true.1 hafter c hc),
    ?_, ?_⟩
  · rw [hv]
    exact hint _ _ hdigits
  · calc piece = piece.takeWhile isSpace ++ piece.dropWhile isSpace := List.takeWhile_append_dropWhile.symm
      _ = piece.takeWhile isSpace ++ (sign ++ (u.takeWhile isDigit ++ u.dropWhile isDigit)) := by
        rw [hrest, List.takeWhile_append_dropWhile]
      _ = _ := by simp only [List.append_assoc]

theorem parsePiece_of_pieceText {piece : List Char} {v : I64} (h : PieceText piece v) : parsePiece piece = some v := by
  obtain ⟨before, body, after, hbefore, hafter, hbody, rfl⟩ := h
  obtain ⟨negative, ds, n, hds, hv, hsign⟩ := parseSign_of_intText hbody
  obtain ⟨hne, hdigits, rfl⟩ := digitsText_iff.1 hds
  have hstart : (before ++ (body ++ after)).dropWhile isSpace = body ++ after := by
    refine (takeWhile_dropWhile_append (fun c hc => isSpace_iff.2 (hbefore c hc)) fun c hc => ?_).2
    rw [List.head?_append_of_ne_nil _ (intText_ne_nil hbody)] at hc
    exact isSpace_eq_false_of_mem_intText hbody (List.mem_of_mem_head? hc)
  obtain ⟨htake, hdrop⟩ := takeWhile_dropWhile_append hdigits fun c (hc : after.head? = some c) =>
    isDigit_eq_false_of_isBlank (hafter c (List.mem_of_mem_head? hc))
  refine parsePiece_eq_some_iff.2 ⟨negative, ds ++ after, ?_, ?_, ?_, ?_⟩
  · rw [List.append_assoc, hstart, hsign]
  · rwa [htake]
  · rw [hdrop]
    exact List.all_eq_true.2 fun c hc => isSpace_iff.2 (hafter c hc)
  · rwa [htake]

theorem comma_notMem_of_pieceText {piece : List Char} {v : I64} (h : PieceText piece v) : ',' ∉ piece := by
  obtain ⟨before, body, after, hbefore, hafter, hbody, rfl⟩ := h
  have hblank : ¬ IsBlank ',' := by simp [IsBlank]
  have hint : ',' ∉ body := fun hc => absurd (mem_intText hbody hc) (by decide)
  simp only [List.mem_append, not_or]
  exact ⟨⟨fun hc => hblank (hbefore _ hc), hint⟩, fun hc => hblank (hafter _ hc)⟩

/-! ### The text, cut at its commas -/

theorem splitCommas_of_notMem {p : List Char} (h : ',' ∉ p) : splitCommas p = [p] := by
  induction p with
  | nil => rfl
  | cons c p ih =>
    obtain ⟨hc, hp⟩ : ',' ≠ c ∧ ',' ∉ p := by simpa using h
    simp [splitCommas, ih hp, Ne.symm hc]

theorem splitCommas_ne_nil (t : List Char) : splitCommas t ≠ [] := by
  cases t with
  | nil => simp [splitCommas]
  | cons c t =>
    simp only [splitCommas]
    split
    · simp
    · split <;> simp

theorem splitCommas_comma_cons (r : List Char) : splitCommas (',' :: r) = [] :: splitCommas r := by
  obtain ⟨p, ps, hr⟩ := List.exists_cons_of_ne_nil (splitCommas_ne_nil r)
  simp [splitCommas, hr]

/-- The first comma ends the first piece. -/
theorem splitCommas_append_comma {p : List Char} (h : ',' ∉ p) (r : List Char) :
    splitCommas (p ++ ',' :: r) = p :: splitCommas r := by
  induction p with
  | nil => exact splitCommas_comma_cons r
  | cons c p ih =>
    obtain ⟨hc, hp⟩ : ',' ≠ c ∧ ',' ∉ p := by simpa using h
    simp [splitCommas, ih hp, Ne.symm hc]

theorem parseText_of_notMem {p : List Char} (h : ',' ∉ p) {image : List I64} :
    parseText p = some image ↔ ∃ v, parsePiece p = some v ∧ image = [v] := by
  rw [parseText, splitCommas_of_notMem h]
  cases hp : parsePiece p <;> simp [parsePieces, hp, eq_comm]

theorem parseText_append_comma {p : List Char} (h : ',' ∉ p) {r : List Char} {image : List I64} :
    parseText (p ++ ',' :: r) = some image ↔
      ∃ v vs, parsePiece p = some v ∧ parseText r = some vs ∧ image = v :: vs := by
  rw [parseText, splitCommas_append_comma h, parseText]
  cases hp : parsePiece p <;> cases hr : parsePieces (splitCommas r) <;> simp [parsePieces, hp, hr, eq_comm]

/-- The parser's answer is an image by the grammar: by recursion on what follows the first comma. -/
theorem programText_of_parseText (text : List Char) (image : List I64) (h : parseText text = some image) :
    ProgramText text image := by
  by_cases hcomma : ',' ∈ text
  · obtain ⟨p, r, hsplit, hp⟩ := List.eq_append_cons_of_mem hcomma
    have hshorter : r.length < text.length := by simp [hsplit]; omega
    rw [hsplit] at h ⊢
    obtain ⟨v, vs, hv, hvs, rfl⟩ := (parseText_append_comma hp).1 h
    exact .more p r v vs (pieceText_of_parsePiece hv) (programText_of_parseText r vs hvs)
  · obtain ⟨v, hv, rfl⟩ := (parseText_of_notMem hcomma).1 h
    exact .one text v (pieceText_of_parsePiece hv)
termination_by text.length
decreasing_by exact hshorter

theorem parseText_of_programText {text : List Char} {image : List I64} (h : ProgramText text image) :
    parseText text = some image := by
  induction h with
  | one p v hp => exact (parseText_of_notMem (comma_notMem_of_pieceText hp)).2 ⟨v, parsePiece_of_pieceText hp, rfl⟩
  | more p r v vs hp _ ih =>
    exact (parseText_append_comma (comma_notMem_of_pieceText hp)).2 ⟨v, vs, parsePiece_of_pieceText hp, ih, rfl⟩

/-! ### The loads of the host -/

/-- A host action that is the next move is carried out (60_exceptions.md R109). -/
theorem step_of_host {s : State} {a : HostAction} {r : List Move} (h : s.agenda = .host a :: r) :
    step s = .next (hostAct a { s with agenda := r }) := by
  simp [step, systemStep, h]

theorem hostAct_load {s : State} (h : hostWaits s = false) (e : EngineId) (image : List I64) :
    hostAct (.load e image) s = hostLoad e image s := by
  simp [hostAct, h]

theorem hostAct_loadText {s : State} (h : hostWaits s = false) (e : EngineId) (text : List Char) :
    hostAct (.loadText e text) s = hostLoadText e text s := by
  simp [hostAct, h]

theorem onIdleEngine_of_idle {s : State} {e : EngineId} {x : Engine} (hx : findEngine s e = some x) (hr : x.run = .idle)
    (f : Engine → State) : onIdleEngine e f s = f x := by
  simp [onIdleEngine, hx, hr]

theorem hostLoad_of_idle {s : State} {e : EngineId} {x : Engine} (hx : findEngine s e = some x) (hr : x.run = .idle)
    (image : List I64) : hostLoad e image s = reply .done (setEngine e (loadedEngine image x) s) := by
  simp [hostLoad, hx, onIdleEngine_of_idle hx hr]

/-- Outside any run, or under a new name, a load of a text does what the parser's answer says. -/
theorem hostLoadText_of_idle {s : State} {e : EngineId} (h : ∀ x, findEngine s e = some x → x.run = .idle)
    (text : List Char) : hostLoadText e text s = parseThenLoad e text s := by
  cases hx : findEngine s e with
  | none => simp [hostLoadText, hx]
  | some x => simp [hostLoadText, hx, onIdleEngine_of_idle hx (h x hx)]

/-- A load of a text of the grammar into an engine outside any run is the load of the image it stands for
(70_reset_and_hazards.md R117). -/
theorem hostLoadText_of_programText {s : State} {e : EngineId} {x : Engine} {text : List Char} {image : List I64}
    (hx : findEngine s e = some x) (hr : x.run = .idle) (h : ProgramText text image) :
    hostLoadText e text s = hostLoad e image s := by
  rw [hostLoadText_of_idle fun y hy => Option.some.inj (hx.symm.trans hy) ▸ hr, parseThenLoad, parseText_of_programText h]

/-! ### The obligations -/

/-- Settles O45: the two directions are by recursion on the text after its first comma and by induction on the grammar. -/
theorem parserAcceptsExactlyTheGrammar : Obligations.ParserAcceptsExactlyTheGrammar := fun text image =>
  ⟨programText_of_parseText text image, parseText_of_programText⟩

/-- Settles O43: either load sets the engine to the loaded one and changes no other. -/
theorem loadResetsTheEngine : Obligations.LoadResetsTheEngine := by
  intro s e x image r hmove hwaits hx hr
  replace hwaits : hostWaits { s with agenda := r } = false := hwaits
  replace hx : findEngine { s with agenda := r } e = some x := hx
  have hstep : step s = .next (reply .done (setEngine e (loadedEngine image x) { s with agenda := r })) := by
    rw [← hostLoad_of_idle hx hr]
    rcases hmove with hload | ⟨text, htext, hload⟩
    · rw [step_of_host hload, hostAct_load hwaits]
    · rw [step_of_host hload, hostAct_loadText hwaits, hostLoadText_of_programText hx hr htext]
  refine ⟨_, loadedEngine image x, hstep, findEngine_setEngine_same _ _ _, memRead_memLoad image, rfl, rfl, rfl, rfl, hr,
    rfl, rfl, ?_, ?_, ?_, fun f hf => findEngine_setEngine_ne _ _ hf⟩
  all_goals simp

/-- Settles O46: the parser answers nothing for a text outside the grammar, and nothing is loaded. -/
theorem failedParseChangesNothing : Obligations.FailedParseChangesNothing := by
  intro s e text r hload hwaits hidle htext
  replace hwaits : hostWaits { s with agenda := r } = false := hwaits
  replace hidle : ∀ x, findEngine { s with agenda := r } e = some x → x.run = .idle := hidle
  have hnone : parseText text = none :=
    Option.eq_none_iff_forall_ne_some.2 fun image h => htext image (programText_of_parseText text image h)
  rw [step_of_host hload, hostAct_loadText hwaits, hostLoadText_of_idle hidle, parseThenLoad, hnone]
  rfl

end Sys2Proof.Machine
end

section
/-! PROOF. The encoder against the decoder: the digits of an encoded opcode word, the opcode map, and which words are
instructions (30_encoding.md R48 to R52, R60, R65, R68). -/

namespace Sys2Proof

/-! ### The opcode word that the encoder writes -/

/-- A number below `2^63` is its own reduction. -/
theorem I64.wrap_val_of_lt {n : Nat} (h : n < 9223372036854775808) : (I64.wrap n).val = n := by
  simp only [I64.wrap]
  omega

theorem encodeModes_mul (k scale : Nat) (ms : List Mode) : encodeModes (k * scale) ms = k * encodeModes scale ms := by
  induction ms generalizing scale with
  | nil => rfl
  | cons m ms ih =>
    simp only [encodeModes, Nat.mul_assoc, ih]
    exact (Nat.mul_add ..).symm

/-- The digits of the first mode and of the rest, counted from the units. -/
theorem encodeModes_one_cons (m : Mode) (ms : List Mode) :
    encodeModes 1 (m :: ms) = digitOfMode m + 10 * encodeModes 1 ms := by
  rw [← encodeModes_mul]
  simp [encodeModes]

theorem encodeModes_one_lt (ms : List Mode) : encodeModes 1 ms < 10 ^ ms.length := by
  induction ms with
  | nil => simp [encodeModes]
  | cons m ms ih =>
    have hm := digitOfMode_lt m
    rw [encodeModes_one_cons, List.length_cons, Nat.pow_succ]
    omega

/-- Digit `k` of the mode digits is that of mode `k` (30_encoding.md R51). -/
theorem digit_encodeModes_one {ms : List Mode} {k : Nat} {m : Mode} (h : ms[k]? = some m) :
    digit (encodeModes 1 ms) k = digitOfMode m := by
  induction ms generalizing k with
  | nil => simp at h
  | cons m' ms ih =>
    have hm := digitOfMode_lt m'
    rw [encodeModes_one_cons]
    cases k with
    | zero =>
      obtain rfl : m' = m := by simpa using h
      simp only [digit]
      omega
    | succ k =>
      rw [← ih (by simpa using h), digit, digit, Nat.pow_succ', ← Nat.div_div_eq_div_mul]
      congr 2
      omega

theorem opcode_lt_hundred (i : Instr) : i.opcode < 100 := by
  cases i <;> simp [Instr.opcode]

theorem encodeWord_eq (i : Instr) :
    encodeWord i = i.opcode + 100 * encodeModes 1 (i.slots.map fun p => p.2.mode) := by
  rw [← encodeModes_mul]
  rfl

theorem slots_length_le_three (i : Instr) : i.slots.length ≤ 3 := by
  cases i <;> simp [Instr.slots]

theorem encodeWord_lt (i : Instr) : encodeWord i < 100000 := by
  have hop := opcode_lt_hundred i
  have hmodes := encodeModes_one_lt (i.slots.map fun p => p.2.mode)
  have hpow : 10 ^ (i.slots.map fun p => p.2.mode).length ≤ 10 ^ 3 :=
    Nat.pow_le_pow_right (by decide) (by simpa using slots_length_le_three i)
  rw [encodeWord_eq]
  omega

theorem opcodeOf_encodeWord (i : Instr) : opcodeOf (encodeWord i) = i.opcode := by
  have hop := opcode_lt_hundred i
  rw [opcodeOf_eq_mod, encodeWord_eq]
  omega

theorem modeAt_encodeWord {i : Instr} {k : Nat} {p : SlotKind × Operand} (h : i.slots[k]? = some p) :
    modeAt (encodeWord i) k = p.2.mode := by
  have hop := opcode_lt_hundred i
  have hdigit : digit (encodeModes 1 (i.slots.map fun p => p.2.mode)) k = digitOfMode p.2.mode :=
    digit_encodeModes_one (by simp [h])
  have hshift : digit (encodeWord i) (2 + k) = digit (encodeModes 1 (i.slots.map fun p => p.2.mode)) k := by
    rw [encodeWord_eq, digit, digit, Nat.pow_add, ← Nat.div_div_eq_div_mul]
    congr 2
    omega
  rw [modeAt, hshift, hdigit, modeOfDigit_digitOfMode]

/-! ### The opcode map -/

/-- The opcode map gives back an instruction from its opcode and its slots. -/
theorem instrOfOpcode_of_slots {i : Instr} {slot : Nat → Operand} (h : ∀ k p, i.slots[k]? = some p → slot k = p.2) :
    instrOfOpcode slot i.opcode = some i := by
  have hown : instrOfOpcode (fun k => (i.slots.getD k (.read, ⟨.position, .zero⟩)).2) i.opcode = some i := by
    cases i <;> rfl
  refine instrOfOpcode_congr hown fun k hk => ?_
  rw [h k _ (List.getElem?_eq_getElem hk), List.getD_eq_getElem _ _ hk]

theorem opcode_of_instrOfOpcode {slot : Nat → Operand} {c : Nat} {i : Instr} (h : instrOfOpcode slot c = some i) :
    i.opcode = c := by
  unfold instrOfOpcode at h
  split at h <;> cases h <;> rfl

theorem exists_instrOfOpcode {slot : Nat → Operand} {c : Nat} (h : c ∈ [1, 2, 3, 4, 5, 6, 7, 8, 9, 99]) :
    ∃ i, instrOfOpcode slot c = some i := by
  fin_cases h <;> exact ⟨_, rfl⟩

/-! ### Decoding -/

/-- A decoded word has the opcode of its instruction as its two low digits. -/
theorem mod_hundred_of_decode {w : I64} {raw : Nat → I64} {i : Instr} (h : decode w raw = .ok i) :
    w.val % 100 = (i.opcode : Int) := by
  obtain ⟨hpos, hi⟩ := decode_eq_ok_iff.1 h
  have hop := opcode_of_instrOfOpcode hi
  rw [opcodeOf_eq_mod] at hop
  omega

theorem exists_decode_iff {w : I64} {raw : Nat → I64} :
    (∃ i, decode w raw = .ok i) ↔ 0 ≤ w.val ∧ w.val % 100 ∈ ([1, 2, 3, 4, 5, 6, 7, 8, 9, 99] : List Int) := by
  constructor
  · rintro ⟨i, h⟩
    refine ⟨(decode_eq_ok_iff.1 h).1, ?_⟩
    rw [mod_hundred_of_decode h]
    cases i <;> simp [Instr.opcode]
  · rintro ⟨hpos, hmem⟩
    have hop : opcodeOf w.val.toNat ∈ [1, 2, 3, 4, 5, 6, 7, 8, 9, 99] := by
      rw [opcodeOf_eq_mod]
      simp only [List.mem_cons, List.not_mem_nil, or_false] at hmem ⊢
      omega
    obtain ⟨i, hi⟩ := exists_instrOfOpcode (slot := slotOperand w.val.toNat raw) hop
    exact ⟨i, decode_eq_ok_iff.2 ⟨hpos, hi⟩⟩

/-- The encoder's word decodes to the instruction, where the raw operands are those of its slots (30_encoding.md R68). -/
theorem decode_encodeWord {i : Instr} {raw : Nat → I64} (h : ∀ k p, i.slots[k]? = some p → raw k = p.2.raw) :
    decode (I64.wrap (encodeWord i)) raw = .ok i := by
  have hval : (I64.wrap (encodeWord i)).val = encodeWord i :=
    I64.wrap_val_of_lt ((encodeWord_lt i).trans (by decide))
  rw [decode_eq_ok_iff, hval, Int.toNat_natCast, opcodeOf_encodeWord]
  refine ⟨Int.natCast_nonneg _, instrOfOpcode_of_slots fun k p hp => ?_⟩
  rw [slotOperand, modeAt_encodeWord hp, h k p hp]

/-- Past the opcode word, cell `k` of the encoding is the raw operand of slot `k`. -/
theorem encode_getD_succ {i : Instr} {k : Nat} {p : SlotKind × Operand} (h : i.slots[k]? = some p) :
    (encode i).getD (k + 1) I64.zero = p.2.raw := by
  simp [encode, List.getD, h]

end Sys2Proof

namespace Sys2Proof.Machine

/-- Settles O1: the fetched word is the encoder's, whose digits are the opcode and the modes, and the cells after it are the
raw operands. -/
theorem fetchOfEncodedIsTheInstruction : Obligations.FetchOfEncodedIsTheInstruction := by
  intro i x hcells
  have hlen := length_eq_slots_length_add_one i
  have hword : memRead x.mem x.ip = I64.wrap (encodeWord i) := hcells 0 (by omega)
  rw [fetch, hword]
  refine decode_encodeWord fun k p hp => ?_
  obtain ⟨hk, -⟩ := List.getElem?_eq_some_iff.1 hp
  rw [Nat.add_assoc, Nat.add_comm 1 k, hcells (k + 1) (by omega), encode_getD_succ hp]

/-- Settles O4: a word decodes exactly when the opcode map has its two low digits. -/
theorem decodeAcceptsExactlyTheTable : Obligations.DecodeAcceptsExactlyTheTable :=
  fun _ _ => ⟨exists_decode_iff, fun _ h => mod_hundred_of_decode h⟩

/-- Settles O2, by evaluation of the seven decodings. -/
theorem wordsWrittenOutDecode : Obligations.WordsWrittenOutDecode :=
  ⟨rfl, rfl, rfl, rfl, rfl, rfl, rfl⟩

end Sys2Proof.Machine
end

section
/-! PROOF. What each instruction does where its operands resolve, which fault it takes where it cannot complete, and that it
always answers a next state (40_engine.md, 41_arith.md to 46_halt.md). -/

namespace Sys2Proof.Machine

/-! ### Each instruction by the shape it is executed in -/

theorem exec_add (a b out : Operand) (s : State) :
    exec (.add a b out) s = computeAndStore (fun x y => fit s.cfg (x.val + y.val)) a b out s := rfl

theorem exec_mul (a b out : Operand) (s : State) :
    exec (.mul a b out) s = computeAndStore (fun x y => fit s.cfg (x.val * y.val)) a b out s := rfl

theorem exec_lessThan (a b out : Operand) (s : State) :
    exec (.lessThan a b out) s = computeAndStore (fun x y => .ok (lessThanCell x y)) a b out s := rfl

theorem exec_equals (a b out : Operand) (s : State) :
    exec (.equals a b out) s = computeAndStore (fun x y => .ok (equalsCell x y)) a b out s := rfl

theorem exec_jumpIfTrue (test target : Operand) (s : State) :
    exec (.jumpIfTrue test target) s = jumpWhen testTrue test target s := rfl

theorem exec_jumpIfFalse (test target : Operand) (s : State) :
    exec (.jumpIfFalse test target) s = jumpWhen (fun v => !testTrue v) test target s := rfl

/-! ### Execution always answers -/

theorem computeAndStore_answers (compute : I64 → I64 → Except FaultCause I64) (a b out : Operand) (s : State) :
    ∃ t, computeAndStore compute a b out s = .next t := by
  unfold computeAndStore
  split
  · exact ⟨_, rfl⟩
  · split <;> exact ⟨_, rfl⟩

theorem jumpWhen_answers (taken : I64 → Bool) (test target : Operand) (s : State) :
    ∃ t, jumpWhen taken test target s = .next t := by
  unfold jumpWhen
  split
  · exact ⟨_, rfl⟩
  · split
    · split <;> exact ⟨_, rfl⟩
    · exact ⟨_, rfl⟩

theorem execInput_answers (out : Operand) (s : State) : ∃ t, execInput out s = .next t := by
  unfold execInput
  split
  · exact ⟨_, rfl⟩
  · split
    · exact ⟨_, rfl⟩
    · split
      · exact ⟨_, rfl⟩
      · split <;> exact ⟨_, rfl⟩

theorem execOutput_answers (a : Operand) (s : State) : ∃ t, execOutput a s = .next t := by
  unfold execOutput
  split
  · exact ⟨_, rfl⟩
  · split
    · exact ⟨_, rfl⟩
    · split <;> exact ⟨_, rfl⟩

theorem execRelativeBaseOffset_answers (a : Operand) (s : State) : ∃ t, execRelativeBaseOffset a s = .next t := by
  unfold execRelativeBaseOffset
  split
  · exact ⟨_, rfl⟩
  · split <;> exact ⟨_, rfl⟩

/-- Settles O9, by cases on the operation. -/
theorem everyInstructionAnswers : Obligations.EveryInstructionAnswers := by
  intro i s
  cases i with
  | add a b out => exact exec_add a b out s ▸ computeAndStore_answers _ a b out s
  | mul a b out => exact exec_mul a b out s ▸ computeAndStore_answers _ a b out s
  | lessThan a b out => exact exec_lessThan a b out s ▸ computeAndStore_answers _ a b out s
  | equals a b out => exact exec_equals a b out s ▸ computeAndStore_answers _ a b out s
  | jumpIfTrue test target => exact exec_jumpIfTrue test target s ▸ jumpWhen_answers _ test target s
  | jumpIfFalse test target => exact exec_jumpIfFalse test target s ▸ jumpWhen_answers _ test target s
  | input out => exact execInput_answers out s
  | output a => exact execOutput_answers a s
  | relativeBaseOffset a => exact execRelativeBaseOffset_answers a s
  | halt => exact ⟨_, rfl⟩

/-! ### The first slot that does not resolve (60_exceptions.md R99) -/

theorem resolveTwo_of_firstSlotFault {cfg : Config} {x : Engine} {a b : Operand} {f : FaultCause}
    (h : FirstSlotFault cfg x 0 [(.read, a), (.read, b)] f) : resolveTwo x a b = .error f := by
  rcases h with ha | ⟨⟨u, hu⟩, hb | ⟨-, ⟨⟩⟩⟩
  · simp [resolveTwo, resolveRead_error.2 ha]
  · obtain ⟨p, hp, -⟩ := resolveRead_of_readsAs 0 hu
    simp [resolveTwo, hp, resolveRead_error.2 hb]

theorem resolveThree_of_firstSlotFault {cfg : Config} {x : Engine} {a b out : Operand} {f : FaultCause}
    (h : FirstSlotFault cfg x 0 [(.read, a), (.read, b), (.write, out)] f) : resolveThree cfg x a b out = .error f := by
  rcases h with ha | ⟨hu, hb | ⟨hv, hout | ⟨-, ⟨⟩⟩⟩⟩
  · simp [resolveThree, resolveTwo_of_firstSlotFault (.inl ha)]
  · simp [resolveThree, resolveTwo_of_firstSlotFault (.inr ⟨hu, .inl hb⟩)]
  · obtain ⟨u, hu⟩ := hu
    obtain ⟨v, hv⟩ := hv
    obtain ⟨p, q, hpq, -⟩ := resolveTwo_of_readsAs hu hv
    simp [resolveThree, hpq, resolveWrite_error.2 hout]

theorem slotFault_of_firstSlotFault_singleton {cfg : Config} {x : Engine} {p : SlotKind × Operand} {f : FaultCause}
    (h : FirstSlotFault cfg x 0 [p] f) : SlotFault cfg x 0 p f := by
  rcases h with h | ⟨-, ⟨⟩⟩
  exact h

theorem computeAndStore_of_firstSlotFault {compute : I64 → I64 → Except FaultCause I64} {a b out : Operand} {s : State}
    {f : FaultCause} (h : FirstSlotFault s.cfg s.eng 0 [(.read, a), (.read, b), (.write, out)] f) :
    computeAndStore compute a b out s = .next (raiseFault f s) := by
  simp [computeAndStore, resolveThree_of_firstSlotFault h]

theorem jumpWhen_of_firstSlotFault {taken : I64 → Bool} {test target : Operand} {s : State} {f : FaultCause}
    (h : FirstSlotFault s.cfg s.eng 0 [(.read, test), (.read, target)] f) :
    jumpWhen taken test target s = .next (raiseFault f s) := by
  simp [jumpWhen, resolveTwo_of_firstSlotFault h]

/-- An instruction with a slot that does not resolve raises the fault of the first such slot, and no other. -/
theorem exec_of_firstSlotFault {i : Instr} {s : State} {f : FaultCause} (h : FirstSlotFault s.cfg s.eng 0 i.slots f) :
    exec i s = .next (raiseFault f s) := by
  cases i with
  | add a b out => exact (exec_add a b out s).trans (computeAndStore_of_firstSlotFault h)
  | mul a b out => exact (exec_mul a b out s).trans (computeAndStore_of_firstSlotFault h)
  | lessThan a b out => exact (exec_lessThan a b out s).trans (computeAndStore_of_firstSlotFault h)
  | equals a b out => exact (exec_equals a b out s).trans (computeAndStore_of_firstSlotFault h)
  | jumpIfTrue test target => exact (exec_jumpIfTrue test target s).trans (jumpWhen_of_firstSlotFault h)
  | jumpIfFalse test target => exact (exec_jumpIfFalse test target s).trans (jumpWhen_of_firstSlotFault h)
  | input out =>
    have hout := resolveWrite_error.2 (slotFault_of_firstSlotFault_singleton h)
    simp [exec, execInput, hout]
  | output a =>
    have ha := resolveRead_error.2 (slotFault_of_firstSlotFault_singleton h)
    simp [exec, execOutput, ha]
  | relativeBaseOffset a =>
    have ha := resolveRead_error.2 (slotFault_of_firstSlotFault_singleton h)
    simp [exec, execRelativeBaseOffset, ha]
  | halt => cases h

/-- Settles O11: the instruction raises that fault, and raising it is taking it. -/
theorem firstSlotFaultIsReported : Obligations.FirstSlotFaultIsReported := fun _ s f h =>
  ⟨_, exec_of_firstSlotFault h, takesFault_raiseFault f s⟩

/-! ### Instructions that compute and store -/

/-- What the end of a completed F3 instruction leaves: one cell is written, `ip` advances, and the rest stays. -/
theorem advance_storeCell_frame {s : State} (hwf : s.eng.mem.wf) (d : Nat) (r : I64) :
    StoredAt s.eng.mem (advance 4 (storeCell d r s)).eng.mem d r ∧ (advance 4 (storeCell d r s)).eng.ip = s.eng.ip + 4 ∧
      SameButMemoryAndIp s.eng (advance 4 (storeCell d r s)).eng ∧ SameOutside s (advance 4 (storeCell d r s)) :=
  ⟨storedAt_memWrite hwf d r, rfl, ⟨rfl, rfl, rfl, rfl, rfl⟩, rfl, rfl, rfl, rfl, rfl, rfl, rfl, rfl⟩

theorem computeAndStore_of_ok {compute : I64 → I64 → Except FaultCause I64} {a b out : Operand} {s : State} {u v r : I64}
    {d : Nat} (ha : ReadsAs s.eng a u) (hb : ReadsAs s.eng b v) (hd : WritesTo s.cfg s.eng out d)
    (hr : compute u v = .ok r) : computeAndStore compute a b out s = .next (advance 4 (storeCell d r s)) := by
  rw [computeAndStore_of_operands ha hb hd]
  simp only [hr]

theorem computeAndStore_of_error {compute : I64 → I64 → Except FaultCause I64} {a b out : Operand} {s : State} {u v : I64}
    {d : Nat} {f : FaultCause} (ha : ReadsAs s.eng a u) (hb : ReadsAs s.eng b v) (hd : WritesTo s.cfg s.eng out d)
    (hf : compute u v = .error f) : computeAndStore compute a b out s = .next (raiseFault f s) := by
  rw [computeAndStore_of_operands ha hb hd]
  simp only [hf]

/-- Settles O16: the exact sum fits, so it is what is stored. -/
theorem addStoresTheSum : Obligations.AddStoresTheSum := by
  intro s a b out u v r d hwf ha hb hd hr
  have hexec : exec (.add a b out) s = .next (advance 4 (storeCell d r s)) :=
    (exec_add a b out s).trans (computeAndStore_of_ok ha hb hd (fit_inRange hr))
  exact ⟨_, hexec, advance_storeCell_frame hwf d r⟩

/-- Settles O17: the exact product fits, so it is what is stored. -/
theorem multiplyStoresTheProduct : Obligations.MultiplyStoresTheProduct := by
  intro s a b out u v r d hwf ha hb hd hr
  have hexec : exec (.mul a b out) s = .next (advance 4 (storeCell d r s)) :=
    (exec_mul a b out s).trans (computeAndStore_of_ok ha hb hd (fit_inRange hr))
  exact ⟨_, hexec, advance_storeCell_frame hwf d r⟩

/-- A comparison writes 1 where it holds and 0 where it does not (44_compare.md R90). -/
theorem truthCell_val (p : Prop) [Decidable p] : (truthCell (decide p)).val = if p then 1 else 0 := by
  by_cases hp : p <;> simp [truthCell, hp, I64.one, I64.zero]

/-- Settles O21: the cell compared is the truth value of `u < v`. -/
theorem lessThanStoresTheComparison : Obligations.LessThanStoresTheComparison := by
  intro s a b out u v d hwf ha hb hd
  have hexec : exec (.lessThan a b out) s = .next (advance 4 (storeCell d (lessThanCell u v) s)) :=
    (exec_lessThan a b out s).trans (computeAndStore_of_ok ha hb hd rfl)
  obtain ⟨hmem, hframe⟩ := advance_storeCell_frame hwf d (lessThanCell u v)
  exact ⟨_, hexec, ⟨_, truthCell_val _, hmem⟩, hframe⟩

/-- Settles O22: the cell compared is the truth value of `u = v`. -/
theorem equalsStoresTheComparison : Obligations.EqualsStoresTheComparison := by
  intro s a b out u v d hwf ha hb hd
  have hexec : exec (.equals a b out) s = .next (advance 4 (storeCell d (equalsCell u v) s)) :=
    (exec_equals a b out s).trans (computeAndStore_of_ok ha hb hd rfl)
  obtain ⟨hmem, hframe⟩ := advance_storeCell_frame hwf d (equalsCell u v)
  exact ⟨_, hexec, ⟨_, truthCell_val _, hmem⟩, hframe⟩

/-- An F3 instruction whose computation raises nothing takes no fault but that of a slot, so none for an overflow. -/
theorem computeAndStore_never_overflows {compute : I64 → I64 → Except FaultCause I64} {a b out : Operand} {s t : State}
    {f : FaultRecord} (hcompute : ∀ u v g, compute u v ≠ .error g) (hs : s.eng.status = .running)
    (h : computeAndStore compute a b out s = .next t) (hf : t.eng.status = .faulted f) (r : Int) :
    f.cause ≠ .arithmeticOverflow r := by
  rcases computeAndStore_outcomes h with ⟨g, k, p, hg, rfl⟩ | ⟨u, v, g, -, -, hg, -⟩ | ⟨d, v, rfl⟩
  · obtain rfl : recordOf g s.eng = f := Status.faulted.inj ((takesFault_raiseFault g s).1.symm.trans hf)
    exact slotFault_ne_arithmeticOverflow hg r
  · exact absurd hg (hcompute u v g)
  · rw [advance_eng_status, storeCell_eng_status, hs] at hf
    cases hf

/-- Settles O23: a comparison computes a cell for any two values, so only a slot can fault. -/
theorem comparisonsNeverOverflow : Obligations.ComparisonsNeverOverflow := by
  rintro s t a b out f hs (h | h) hf r
  · rw [exec_lessThan] at h
    exact computeAndStore_never_overflows (by simp) hs h hf r
  · rw [exec_equals] at h
    exact computeAndStore_never_overflows (by simp) hs h hf r

/-! ### RelativeBaseOffset and the overflow policies -/

theorem execRelativeBaseOffset_of_ok {s : State} {a : Operand} {v r : I64} (ha : ReadsAs s.eng a v)
    (hr : fit s.cfg (s.eng.rb.val + v.val) = .ok r) : execRelativeBaseOffset a s = .next (advance 2 (setBase r s)) := by
  obtain ⟨p, hp, rfl⟩ := resolveRead_of_readsAs 0 ha
  simp only [execRelativeBaseOffset, hp, hr]

theorem execRelativeBaseOffset_of_error {s : State} {a : Operand} {v : I64} {f : FaultCause} (ha : ReadsAs s.eng a v)
    (hf : fit s.cfg (s.eng.rb.val + v.val) = .error f) : execRelativeBaseOffset a s = .next (raiseFault f s) := by
  obtain ⟨p, hp, rfl⟩ := resolveRead_of_readsAs 0 ha
  simp only [execRelativeBaseOffset, hp, hf]

theorem sameOutside_advance_setBase (s : State) (r : I64) : SameOutside s (advance 2 (setBase r s)) :=
  ⟨rfl, rfl, rfl, rfl, rfl, rfl, rfl, rfl⟩

/-- Settles O33: the exact sum fits, and the operand is resolved before `rb` is set. -/
theorem relativeBaseAddsItsOperand : Obligations.RelativeBaseAddsItsOperand := by
  intro s a v r ha hr
  have hexec : exec (.relativeBaseOffset a) s = .next (advance 2 (setBase r s)) :=
    execRelativeBaseOffset_of_ok ha (fit_inRange hr)
  exact ⟨_, hexec, rfl, rfl, rfl, rfl, rfl, rfl, rfl, sameOutside_advance_setBase s r⟩

/-- Settles O18: the exact result does not fit, and raising the fault is taking it. -/
theorem overflowFaultsUnderFaultPolicy : Obligations.OverflowFaultsUnderFaultPolicy := by
  intro s a b out u v d hpolicy ha hb hd
  refine ⟨fun h => ⟨_, ?_, takesFault_raiseFault _ s⟩, fun h => ⟨_, ?_, takesFault_raiseFault _ s⟩,
    fun h => ⟨_, ?_, takesFault_raiseFault _ s⟩⟩
  · exact (exec_add a b out s).trans (computeAndStore_of_error ha hb hd (fit_fault h hpolicy))
  · exact (exec_mul a b out s).trans (computeAndStore_of_error ha hb hd (fit_fault h hpolicy))
  · exact execRelativeBaseOffset_of_error ha (fit_fault h hpolicy)

/-- Under the policy `wrap` every result is stored as its reduction: one in range is its own (41_arith.md R80). -/
theorem fit_of_wrap {cfg : Config} (h : cfg.overflowPolicy = .wrap) (z : Int) :
    ∃ r, fit cfg z = .ok r ∧ r.val = (z + 2 ^ 63) % 2 ^ 64 - 2 ^ 63 := by
  by_cases hz : I64.InRange z
  · refine ⟨⟨z, hz.1, hz.2⟩, fit_inRange rfl, ?_⟩
    obtain ⟨hlo, hhi⟩ := hz
    norm_num only
    omega
  · exact ⟨I64.wrap z, fit_wrap hz h, rfl⟩

/-- Settles O19: the reduction of the exact result is what is stored. -/
theorem overflowWrapsUnderWrapPolicy : Obligations.OverflowWrapsUnderWrapPolicy := by
  intro s a b out u v d hpolicy hwf ha hb hd
  obtain ⟨sum, hsum, hsumval⟩ := fit_of_wrap hpolicy (u.val + v.val)
  obtain ⟨prod, hprod, hprodval⟩ := fit_of_wrap hpolicy (u.val * v.val)
  obtain ⟨base, hbase, hbaseval⟩ := fit_of_wrap hpolicy (s.eng.rb.val + u.val)
  obtain ⟨hsummem, hsumip, hsumeng, hsumout⟩ := advance_storeCell_frame hwf d sum
  obtain ⟨hprodmem, hprodip, hprodeng, hprodout⟩ := advance_storeCell_frame hwf d prod
  exact ⟨⟨_, (exec_add a b out s).trans (computeAndStore_of_ok ha hb hd hsum), hsumip, hsumeng, hsumout, sum, hsumval,
      hsummem⟩,
    ⟨_, (exec_mul a b out s).trans (computeAndStore_of_ok ha hb hd hprod), hprodip, hprodeng, hprodout, prod, hprodval,
      hprodmem⟩,
    _, execRelativeBaseOffset_of_ok ha hbase, rfl, rfl, rfl, rfl, rfl, rfl, sameOutside_advance_setBase s base, hbaseval⟩

/-! ### The faults of Input and Output -/

/-- Settles O27: the operand resolves, so the endpoint is what is looked at, and then the queue and its sender. -/
theorem inputFaultsWithoutALiveChannel : Obligations.InputFaultsWithoutALiveChannel := by
  intro s out d hd
  obtain ⟨w, hw, -⟩ := resolveWrite_of_writesTo 0 hd
  refine ⟨fun hnone => ⟨_, ?_, takesFault_raiseFault .noInputChannel s⟩,
    fun c hc hq hdead => ⟨_, ?_, takesFault_raiseFault (.channelClosed .input) s⟩⟩
  · simp only [exec, execInput, hw, hnone]
  · simp [exec, execInput, hw, hc, hq, hdead]

/-- Settles O29: the operand resolves, so the endpoint is what is looked at, and then its receiver. -/
theorem outputFaultsWithoutALiveChannel : Obligations.OutputFaultsWithoutALiveChannel := by
  intro s a v hv
  obtain ⟨p, hp, -⟩ := resolveRead_of_readsAs 0 hv
  refine ⟨fun hnone => ⟨_, ?_, takesFault_raiseFault .noOutputChannel s⟩,
    fun c hc hdead => ⟨_, ?_, takesFault_raiseFault (.channelClosed .output) s⟩⟩
  · simp only [exec, execOutput, hp, hnone]
  · simp [exec, execOutput, hp, hc, hdead]

/-! ### Jumps and Halt -/

/-- What a jump does, by whether it is taken and by the sign of its target. -/
theorem jumpWhen_outcomes {taken : I64 → Bool} {test target : Operand} {s : State} {u v : I64}
    (hu : ReadsAs s.eng test u) (hv : ReadsAs s.eng target v) :
    (taken u = true → ∀ n : Nat, v.val = n → jumpWhen taken test target s = .next (jumpTo n s)) ∧
      (taken u = true → v.val < 0 →
        jumpWhen taken test target s = .next (raiseFault (.negativeAddress 1 v.val) s)) ∧
      (taken u = false → jumpWhen taken test target s = .next (advance 3 s)) := by
  rw [jumpWhen_of_operands hu hv]
  refine ⟨fun ht n hn => ?_, fun ht hneg => ?_, fun ht => ?_⟩
  · simp only [ht, if_true, checkAddress_ok.2 hn]
  · simp only [ht, if_true, checkAddress_error.2 ⟨hneg, rfl⟩]
  · simp [ht]

theorem testTrue_eq_true {u : I64} : testTrue u = true ↔ u.val ≠ 0 := by
  simp [testTrue]

theorem testTrue_eq_false {u : I64} : testTrue u = false ↔ u.val = 0 := by
  simp [testTrue]

/-- Settles O30: the jump is taken exactly when the test is not 0. -/
theorem jumpIfTrueTestsForNonzero : Obligations.JumpIfTrueTestsForNonzero := by
  intro s test target u v hu hv
  obtain ⟨hjump, hfault, hfall⟩ := jumpWhen_outcomes (taken := testTrue) hu hv
  exact ⟨fun h => hjump (testTrue_eq_true.2 h),
    fun h hneg => ⟨_, hfault (testTrue_eq_true.2 h) hneg, takesFault_raiseFault _ s⟩,
    fun h => hfall (testTrue_eq_false.2 h)⟩

/-- Settles O31: the jump is taken exactly when the test is 0. -/
theorem jumpIfFalseTestsForZero : Obligations.JumpIfFalseTestsForZero := by
  intro s test target u v hu hv
  obtain ⟨hjump, hfault, hfall⟩ := jumpWhen_outcomes (taken := fun w => !testTrue w) hu hv
  simp only [Bool.not_eq_true', Bool.not_eq_false', testTrue_eq_true, testTrue_eq_false] at hjump hfault hfall
  exact ⟨hjump, fun h hneg => ⟨_, hfault h hneg, takesFault_raiseFault _ s⟩, hfall⟩

/-- Settles O34: Halt is the end of the run with `Halted`, whose error value is none. -/
theorem haltEndsTheEngine : Obligations.HaltEndsTheEngine := fun s => ⟨_, rfl, endsRun_endRun .halted s⟩

end Sys2Proof.Machine
end

section
/-! PROOF. The schedule: what the engine that has the turn does, which engine gets the turn, and where the system stops
(40_engine.md R72 to R76, 60_exceptions.md R109). -/

namespace Sys2Proof.Machine

/-! ### The engine that has the turn -/

theorem decodeErrorWord_of_decode {w : I64} {raw : Nat → I64} {e : DecodeError} (h : decode w raw = .error e) :
    decodeErrorWord e = w := by
  unfold decode at h
  split at h
  · cases h; rfl
  · split at h <;> cases h
    rfl

/-- An engine finds no instruction exactly where its fetch answers none (30_encoding.md R62). -/
theorem findsNoInstruction_iff {x : Engine} : FindsNoInstruction x ↔ ∀ i, fetch x ≠ .ok i := by
  rw [← not_exists, fetch, exists_decode_iff, not_and_or, Int.not_le]
  rfl

theorem engineTurn_of_fetch {s : State} {i : Instr} (hcan : CanStep s.eng) (hi : fetch s.eng = .ok i) :
    engineTurn s = exec i s := by
  simp [engineTurn, hcan.1, hcan.2, hi]

theorem engineTurn_of_findsNoInstruction {s : State} (hcan : CanStep s.eng) (h : FindsNoInstruction s.eng) :
    engineTurn s = .next (raiseFault (.invalidOpcode (memRead s.eng.mem s.eng.ip)) s) := by
  cases hf : fetch s.eng with
  | ok i => exact absurd hf (findsNoInstruction_iff.1 h i)
  | error e => simp [engineTurn, hcan.1, hcan.2, hf, decodeErrorWord_of_decode hf]

theorem engineTurn_of_ended {s : State} (h : s.eng.status.Ended) : engineTurn s = .fault .ended := by
  rcases h with h | ⟨f, h⟩ <;> simp [engineTurn, h]

theorem engineTurn_of_notInRun {s : State} (h : s.eng.status = .running) (hr : s.eng.run = .idle) :
    engineTurn s = .fault .notInRun := by
  simp [engineTurn, h, hr]

/-- An engine that can step answers a next state (40_engine.md R72). -/
theorem engineTurn_answers {s : State} (hcan : CanStep s.eng) : ∃ t, engineTurn s = .next t := by
  by_cases h : FindsNoInstruction s.eng
  · exact ⟨_, engineTurn_of_findsNoInstruction hcan h⟩
  · obtain ⟨i, hi⟩ : ∃ i, fetch s.eng = .ok i := by simpa [findsNoInstruction_iff] using h
    obtain ⟨t, ht⟩ := everyInstructionAnswers i s
    exact ⟨t, (engineTurn_of_fetch hcan hi).trans ht⟩

theorem engineTurn_ne_refused (s : State) (r : Refusal) : engineTurn s ≠ .refused r := by
  by_cases hcan : CanStep s.eng
  · obtain ⟨t, ht⟩ := engineTurn_answers hcan
    simp [ht]
  · cases hs : s.eng.status with
    | running =>
      have hr : s.eng.run = .idle := by_contra fun h => hcan ⟨hs, h⟩
      simp [engineTurn_of_notInRun hs hr]
    | halted => simp [engineTurn_of_ended (.inl hs)]
    | faulted f => simp [engineTurn_of_ended (.inr ⟨f, hs⟩)]

/-! ### Giving an engine the turn -/

/-- An engine that exists is given the turn, in a system that is otherwise the same. -/
theorem exists_givesTurn {s : State} {e : EngineId} {x : Engine} (hn : NamesCanonical s) (hx : findEngine s e = some x)
    (r : List Move) (n : Nat) :
    ∃ u, selectEngine e { s with agenda := r, choices := n } = some u ∧ GivesTurn s u e x r ∧ u.choices = n := by
  obtain ⟨u, hu⟩ := selectEngine_of_findEngine (s := { s with agenda := r, choices := n }) hx
  obtain ⟨hself, heng, -, -, -, -, -, -, hchoices, -⟩ :=
    selectEngine_cases (s := { s with agenda := r, choices := n }) hn hu
  have hturn := givesTurn_of_selectEngine hn hu
  obtain rfl : x = u.eng := Option.some.inj (hx.symm.trans heng)
  exact ⟨u, hu, hself ▸ hturn, hchoices⟩

theorem GivesTurn.eng_eq {s u : State} {e : EngineId} {x : Engine} {r : List Move} (h : GivesTurn s u e x r) :
    u.eng = x := by
  obtain ⟨-, heng, -⟩ := h
  exact heng

/-- What the engine that is given the turn does, by what it fetches. -/
theorem engineTurn_of_givesTurn {s u : State} {e : EngineId} {x : Engine} {r : List Move} (h : GivesTurn s u e x r)
    (hcan : CanStep x) :
    (∀ i, fetch x = .ok i → engineTurn u = exec i u) ∧
      (FindsNoInstruction x →
        ∃ t, engineTurn u = .next t ∧ TakesFault u t (.invalidOpcode (memRead x.mem x.ip))) := by
  obtain rfl := h.eng_eq
  exact ⟨fun i hi => engineTurn_of_fetch hcan hi,
    fun hno => ⟨_, engineTurn_of_findsNoInstruction hcan hno, takesFault_raiseFault _ u⟩⟩

/-! ### The step with no move pending -/

theorem step_of_nil {s : State} (h : s.agenda = []) : step s = autonomousStep s := by
  simp [step, systemStep, h]

theorem step_of_turn {s : State} {e : EngineId} {r : List Move} (h : s.agenda = .turn e :: r) :
    step s = scheduledTurn e { s with agenda := r } := by
  simp [step, systemStep, h]

theorem turnOf_of_select {e : EngineId} {s u : State} (h : selectEngine e s = some u) : turnOf e s = engineTurn u := by
  simp [turnOf, h]

theorem scheduledTurn_of_next {e : EngineId} {s u t : State} (h : selectEngine e s = some u) (ht : engineTurn u = .next t) :
    scheduledTurn e s = .next t := by
  simp [scheduledTurn, h, ht]

theorem scheduledTurn_answers (e : EngineId) (s : State) : ∃ t, scheduledTurn e s = .next t := by
  unfold scheduledTurn
  split
  · exact ⟨_, rfl⟩
  · split
    · exact ⟨_, rfl⟩
    · exact ⟨_, rfl⟩
    · rename_i hrefused
      exact absurd hrefused (engineTurn_ne_refused _ _)

/-- Each engine that can step is listed once. -/
theorem runnableNames_nodup {s : State} (hn : NamesCanonical s) : (runnableNames s).Nodup := by
  obtain ⟨hsorted, hself⟩ := hn
  have hlist : (((s.self, s.eng) :: s.others).map Prod.fst).Nodup := by
    rw [List.map_cons, List.nodup_cons, List.Nodup, List.pairwise_map]
    refine ⟨fun hmem => ?_, hsorted.imp fun h => Nat.ne_of_lt h⟩
    obtain ⟨p, hp, heq⟩ := List.mem_map.1 hmem
    exact hself p hp heq
  exact hlist.sublist (List.filter_sublist.map _)

/-- Where `e` is the only engine that can step, its name is the whole list. -/
theorem runnableNames_eq_singleton {s : State} {e : EngineId} {x : Engine} (hn : NamesCanonical s)
    (hx : findEngine s e = some x) (hcan : CanStep x) (honly : ∀ f y, findEngine s f = some y → CanStep y → f = e) :
    runnableNames s = [e] := by
  have hmem : e ∈ runnableNames s := (mem_runnableNames_iff hn).2 ⟨x, hx, hcan⟩
  have hall : ∀ f ∈ runnableNames s, f = e := fun f hf => by
    obtain ⟨y, hy, hc⟩ := (mem_runnableNames_iff hn).1 hf
    exact honly f y hy hc
  have hnodup := runnableNames_nodup hn
  rw [List.eq_replicate_of_mem hall] at hnodup hmem ⊢
  have hle := List.nodup_replicate.1 hnodup
  have hne : (runnableNames s).length ≠ 0 := fun h => by simp [h] at hmem
  rw [show (runnableNames s).length = 1 by omega, List.replicate_one]

theorem autonomousStep_of_singleton {s : State} {e : EngineId} (h : runnableNames s = [e]) :
    autonomousStep s = turnOf e s := by
  simp [autonomousStep, h]

/-- With engines that can step, a step with no move pending is the turn of one of them. -/
theorem autonomousStep_of_runnable {s : State} (h : runnableNames s ≠ []) :
    ∃ e ∈ runnableNames s, ∃ n, (n = s.choices ∨ n = s.choices + 1) ∧
      autonomousStep s = turnOf e { s with choices := n } := by
  unfold autonomousStep
  split
  · rename_i hnil
    exact absurd hnil h
  · rename_i e he
    exact ⟨e, by simp [he], s.choices, .inl rfl, rfl⟩
  · rename_i e f r he
    exact ⟨_, by rw [he]; exact chosenName_mem (by simp), s.choices + 1, .inr rfl, rfl⟩

theorem autonomousStep_of_nil {s : State} (h : runnableNames s = []) : autonomousStep s = engineTurn s := by
  simp [autonomousStep, h]

/-! ### The step of the engine whose turn it is -/

/-- The engine that is the next to step is given the turn and steps. -/
theorem step_of_nextIs {s : State} {e : EngineId} {x : Engine} {r : List Move} (hn : NamesCanonical s)
    (hnext : NextIs s e r) (hx : findEngine s e = some x) (hcan : CanStep x) :
    ∃ u, GivesTurn s u e x r ∧ u.choices = s.choices ∧ step s = engineTurn u := by
  obtain ⟨u, hu, hturn, hchoices⟩ := exists_givesTurn hn hx r s.choices
  refine ⟨u, hturn, hchoices, ?_⟩
  rcases hnext with hagenda | ⟨hagenda, rfl, honly⟩
  · obtain ⟨t, ht⟩ := engineTurn_answers (s := u) (hturn.eng_eq ▸ hcan)
    rw [step_of_turn hagenda, ht]
    exact scheduledTurn_of_next hu ht
  · have hs : { s with agenda := [], choices := s.choices } = s := by rw [← hagenda]
    rw [hs] at hu
    rw [step_of_nil hagenda, autonomousStep_of_singleton (runnableNames_eq_singleton hn hx hcan honly),
      turnOf_of_select hu]

/-- With no move pending, one of the engines that can step is given the turn and steps. -/
theorem step_of_canStep {s : State} (hn : NamesCanonical s) (hagenda : s.agenda = [])
    (hcan : ∃ e x, findEngine s e = some x ∧ CanStep x) :
    ∃ e x u, findEngine s e = some x ∧ CanStep x ∧ GivesTurn s u e x [] ∧
      (u.choices = s.choices ∨ u.choices = s.choices + 1) ∧ step s = engineTurn u := by
  obtain ⟨f, y, hy, hfcan⟩ := hcan
  have hne : runnableNames s ≠ [] := List.ne_nil_of_mem ((mem_runnableNames_iff hn).2 ⟨y, hy, hfcan⟩)
  obtain ⟨e, he, n, hchoices, hstep⟩ := autonomousStep_of_runnable hne
  obtain ⟨x, hx, hxcan⟩ := (mem_runnableNames_iff hn).1 he
  obtain ⟨u, hu, hturn, rfl⟩ := exists_givesTurn hn hx [] n
  have hs : { s with agenda := [], choices := u.choices } = { s with choices := u.choices } := by rw [← hagenda]
  rw [hs] at hu
  exact ⟨e, x, u, hx, hxcan, hturn, hchoices, by rw [step_of_nil hagenda, hstep, turnOf_of_select hu]⟩

/-! ### The obligations -/

/-- Settles O7: the engine that has the turn is the only one that can step, and keeps the turn. -/
theorem stepRunsTheFetchedInstruction : Obligations.StepRunsTheFetchedInstruction := by
  rintro s i ⟨hagenda, hcan, hothers, hi⟩
  have hnames : runnableNames s = [s.self] := by
    have hnone : s.others.filter (fun p => runnable p.2) = [] :=
      List.filter_eq_nil_iff.2 fun p hp h => hothers p hp (runnable_iff.1 h)
    simp [runnableNames, runnable_iff.2 hcan, hnone]
  have hself : selectEngine s.self s = some s := by simp [selectEngine]
  rw [step_of_nil hagenda, autonomousStep_of_singleton hnames, turnOf_of_select hself, engineTurn_of_fetch hcan hi]

/-- Settles O8: the engine that is given the turn executes what it fetches, or takes InvalidOpcode. -/
theorem scheduledTurnRunsThatEngine : Obligations.ScheduledTurnRunsThatEngine := by
  constructor
  · intro s e x r i hn hnext hx hcan hi
    obtain ⟨u, hturn, hchoices, hstep⟩ := step_of_nextIs hn hnext hx hcan
    obtain ⟨hexec, -⟩ := engineTurn_of_givesTurn hturn hcan
    exact ⟨u, hturn, hchoices, hstep.trans (hexec i hi)⟩
  · intro s hn hagenda hsome
    obtain ⟨e, x, u, hx, hcan, hturn, hchoices, hstep⟩ := step_of_canStep hn hagenda hsome
    obtain ⟨hexec, hfault⟩ := engineTurn_of_givesTurn hturn hcan
    refine ⟨e, x, u, hx, hcan, hturn, hchoices, ?_⟩
    rw [hstep]
    by_cases hno : FindsNoInstruction x
    · exact .inr ⟨hno, hfault hno⟩
    · obtain ⟨i, hi⟩ : ∃ i, fetch x = .ok i := by simpa [findsNoInstruction_iff] using hno
      exact .inl ⟨i, hi, hexec i hi⟩

/-- Settles O10: the engine that is given the turn takes the fault of the word it finds. -/
theorem invalidOpcodeEndsTheEngine : Obligations.InvalidOpcodeEndsTheEngine := by
  intro s e x r hn hnext hx hcan hno
  obtain ⟨u, hturn, -, hstep⟩ := step_of_nextIs hn hnext hx hcan
  obtain ⟨-, hfault⟩ := engineTurn_of_givesTurn hturn hcan
  obtain ⟨t, ht, htakes⟩ := hfault hno
  exact ⟨u, t, hturn, hstep.trans ht, htakes⟩

/-- Settles O14: a turn of an ended engine is dropped; with nothing pending and no engine that can step, the turn stays with
an engine that has no step; and in every other state some move answers. -/
theorem endedEngineHasNoStep : Obligations.EndedEngineHasNoStep := by
  refine ⟨fun s e x r hn hagenda hx hended => ?_, fun s hagenda hnone => ?_, fun s hn hsome => ?_⟩
  · obtain ⟨u, hu, hturn, -⟩ := exists_givesTurn hn hx r s.choices
    have hfault : engineTurn u = .fault .ended := engineTurn_of_ended (hturn.eng_eq ▸ hended)
    rw [step_of_turn hagenda]
    simp [scheduledTurn, hu, hfault]
  · have hnil : runnableNames s = [] := List.eq_nil_iff_forall_not_mem.2 fun e he => by
      rcases mem_runnableNames.1 he with ⟨-, hcan⟩ | ⟨x, hx, hcan⟩
      · exact hnone s.eng List.mem_cons_self hcan
      · exact hnone x (List.mem_cons_of_mem _ (List.mem_map.2 ⟨_, hx, rfl⟩)) hcan
    have hidle : s.eng.status = .running → s.eng.run = .idle := fun hs =>
      by_contra fun hr => hnone s.eng List.mem_cons_self ⟨hs, hr⟩
    rw [step_of_nil hagenda, autonomousStep_of_nil hnil]
    exact ⟨engineTurn_of_ended, fun hs => engineTurn_of_notInRun hs (hidle hs)⟩
  · cases hagenda : s.agenda with
    | nil =>
      obtain ⟨x, hx, hcan⟩ := hsome.resolve_left (· hagenda)
      obtain ⟨e, he⟩ := (mem_allEngines_iff hn).1 hx
      obtain ⟨_, y, u, -, hycan, hturn, -, hstep⟩ := step_of_canStep hn hagenda ⟨e, x, he, hcan⟩
      rw [hstep]
      exact engineTurn_answers (hturn.eng_eq ▸ hycan)
    | cons m r =>
      cases m with
      | turn e => exact step_of_turn hagenda ▸ scheduledTurn_answers e _
      | host a => exact ⟨_, step_of_host hagenda⟩

/-- Settles O25: with the queue empty and the sender alive Input answers the state itself. -/
theorem inputHoldsOnAnEmptyQueue : Obligations.InputHoldsOnAnEmptyQueue := by
  intro s out c d hd hc hq hs
  obtain ⟨w, hw, -⟩ := resolveWrite_of_writesTo 0 hd
  have hexec : exec (.input out) s = .next s := by simp [exec, execInput, hw, hc, hq, hs]
  exact ⟨hexec, fun habout => (stepRunsTheFetchedInstruction s _ habout).trans hexec⟩

theorem jumpTo_own_address (s : State) : jumpTo s.eng.ip s = s := rfl

/-- Settles O32: a jump that is taken sets `ip` to its target, here `ip` itself. -/
theorem takenJumpToItselfLoops : Obligations.TakenJumpToItselfLoops := by
  intro s test target u v hu hv hself
  have loops : ∀ i, exec i s = .next (jumpTo s.eng.ip s) →
      exec i s = .next s ∧ (AboutToExecute s i → step s = .next s) := fun i hexec => by
    rw [jumpTo_own_address] at hexec
    exact ⟨hexec, fun habout => (stepRunsTheFetchedInstruction s i habout).trans hexec⟩
  obtain ⟨hnonzero, -⟩ := jumpIfTrueTestsForNonzero s test target u v hu hv
  obtain ⟨hzero, -⟩ := jumpIfFalseTestsForZero s test target u v hu hv
  exact ⟨fun h => loops _ (hnonzero h _ hself), fun h => loops _ (hzero h _ hself)⟩

end Sys2Proof.Machine
end

section
/-! PROOF. What every instruction leaves alone, and what every step of the system does to an engine, to a queue and to the
parameters (10_state.md R17 to R29, 20_memory.md R34 to R43, 60_exceptions.md R107). -/

namespace Sys2Proof.Machine

/-! ### Rules over all instructions -/

/-- A Running engine that a step leaves in another status has ended its run, as Halted by Halt alone. -/
theorem effect_not_running {s t : State} {i : Instr} (h : Effect s i t) (hs : s.eng.status = .running)
    (ht : t.eng.status ≠ .running) : ∃ st, t = endRun st s ∧ (st = .halted → i = .halt) := by
  cases h with
  | fault f => exact ⟨_, rfl, nofun⟩
  | halt => exact ⟨_, rfl, fun _ => rfl⟩
  | hold | store | receive | send | jump | fallThrough | base => exact absurd hs ht

/-- Settles O35: what is Halted has ended its run, and only Halt ends one so. -/
theorem onlyHaltHalts : Obligations.OnlyHaltHalts := by
  intro i s t hs h ht
  obtain ⟨st, rfl, hi⟩ := effect_not_running (effect_of_exec h) hs (by simp [ht])
  rw [endRun_eng, endedEngine_status] at ht
  exact hi ht

/-- Settles O36, by the effects an instruction can have. -/
theorem onlyRelativeBaseOffsetWritesRb : Obligations.OnlyRelativeBaseOffsetWritesRb := by
  intro i s t h hrb
  cases effect_of_exec h with
  | base a r => exact ⟨a, rfl⟩
  | fault | halt => simp [raiseFault] at hrb
  | hold | store | receive | send | jump | fallThrough => exact absurd rfl hrb

/-- With no write slot an instruction leaves memory and its extent. -/
theorem effect_mem_of_read_slots {s t : State} {i : Instr} (h : Effect s i t) (hread : ∀ p ∈ i.slots, p.1 = .read) :
    t.eng.mem = s.eng.mem := by
  cases h with
  | store _ hi => cases i <;> simp [Instr.length, Instr.slots] at hi hread
  | receive => simp [Instr.slots] at hread
  | fault | halt | hold | send | jump | fallThrough | base => simp [raiseFault]

/-- From `s` to `t` one cell is written, that of the operand `out`. -/
def StoresThrough (s t : State) (out : Operand) : Prop :=
  ∃ d v, WritesTo s.cfg s.eng out d ∧ t.eng.mem = memWrite s.eng.mem d v

theorem computeAndStore_mem {compute : I64 → I64 → Except FaultCause I64} {a b out : Operand} {s t : State}
    (h : computeAndStore compute a b out s = .next t) : t.eng.mem = s.eng.mem ∨ StoresThrough s t out := by
  rcases computeAndStore_cases h with ⟨f, rfl⟩ | ⟨u, v, d, r, -, -, hd, -, rfl⟩
  · exact .inl (by simp [raiseFault])
  · exact .inr ⟨d, r, hd, rfl⟩

theorem execInput_mem {out : Operand} {s t : State} (h : execInput out s = .next t) :
    t.eng.mem = s.eng.mem ∨ StoresThrough s t out := by
  rcases execInput_cases h with ⟨f, rfl⟩ | ⟨-, -, -, -, rfl⟩ | ⟨c, v, rest, d, -, -, hd, rfl⟩
  · exact .inl (by simp [raiseFault])
  · exact .inl rfl
  · exact .inr ⟨d, v, hd, rfl⟩

/-- An instruction leaves memory as it is, or writes the cell of its write slot. -/
theorem exec_mem {i : Instr} {s t : State} (h : exec i s = .next t) :
    t.eng.mem = s.eng.mem ∨ ∃ out, (SlotKind.write, out) ∈ i.slots ∧ StoresThrough s t out := by
  cases i with
  | add a b out => exact (computeAndStore_mem (exec_add a b out s ▸ h)).imp id (⟨out, by simp [Instr.slots], ·⟩)
  | mul a b out => exact (computeAndStore_mem (exec_mul a b out s ▸ h)).imp id (⟨out, by simp [Instr.slots], ·⟩)
  | lessThan a b out => exact (computeAndStore_mem (exec_lessThan a b out s ▸ h)).imp id (⟨out, by simp [Instr.slots], ·⟩)
  | equals a b out => exact (computeAndStore_mem (exec_equals a b out s ▸ h)).imp id (⟨out, by simp [Instr.slots], ·⟩)
  | input out => exact (execInput_mem h).imp id (⟨out, by simp [Instr.slots], ·⟩)
  | output | jumpIfTrue | jumpIfFalse | relativeBaseOffset | halt =>
    exact .inl (effect_mem_of_read_slots (effect_of_exec h) (by simp [Instr.slots]))

/-- An instruction has at most one write slot (30_encoding.md R60). -/
theorem write_slot_unique {i : Instr} {o o' : Operand} (h : (SlotKind.write, o) ∈ i.slots)
    (h' : (SlotKind.write, o') ∈ i.slots) : o = o' := by
  cases i <;> simp_all [Instr.slots]

theorem writesTo_unique {cfg : Config} {x : Engine} {o : Operand} {a b : Nat} (ha : WritesTo cfg x o a)
    (hb : WritesTo cfg x o b) : a = b := by
  obtain ⟨hformed, -⟩ := ha
  obtain ⟨hformed', -⟩ := hb
  simpa using hformed.symm.trans hformed'

/-- Settles O37: the one cell that can change is that of the write slot, of which there is at most one. -/
theorem memoryFrameOfEveryInstruction : Obligations.MemoryFrameOfEveryInstruction := by
  intro i s t hwf h
  rcases exec_mem h with hmem | ⟨out, hout, d, v, hd, hmem⟩
  · exact ⟨fun _ => hmem, fun _ _ _ _ b _ => by rw [hmem]⟩
  · refine ⟨fun hread => absurd (hread _ hout) nofun, fun out' d' hout' hd' b hb => ?_⟩
    obtain rfl := write_slot_unique hout hout'
    obtain rfl := writesTo_unique hd hd'
    rw [hmem, memRead_memWrite_ne hwf v hb]

theorem getChannel_endRun (st : Status) (s : State) (c : ChannelId) :
    getChannel (endRun st s) c = getChannel (releaseEnds s.eng s) c := by
  simp only [getChannel, endRun_chans]

/-- A step of an engine touches no channel but those of its two endpoints. -/
theorem effect_getChannel {s t : State} {i : Instr} (h : Effect s i t) {c : ChannelId} (hinp : s.eng.inp ≠ some c)
    (houtp : s.eng.outp ≠ some c) : getChannel t c = getChannel s c := by
  cases h with
  | fault | halt => exact (getChannel_endRun _ s c).trans (getChannel_releaseEnds_ne hinp houtp)
  | receive _ d v rest _ hd => exact getChannel_setChannel_ne _ s fun h => hinp (h ▸ hd)
  | send _ d v hd => exact getChannel_setChannel_ne _ s fun h => houtp (h ▸ hd)
  | hold | store | jump | fallThrough | base => rfl

/-- Settles O39: an effect touches the engine that has the turn and its channels alone. -/
theorem instructionsAreIsolated : Obligations.InstructionsAreIsolated := by
  intro i s t h
  have heffect := effect_of_exec h
  obtain ⟨hself, hothers, hnext, hagenda, hchoices, -⟩ := effect_frame heffect
  exact ⟨hself, hothers, hnext, hagenda, hchoices, fun c => effect_getChannel heffect⟩

/-! ### Queues -/

/-- From `q` to `q'` nothing moves, the head is taken, or one value is appended (42_io.md R83, R84). -/
def QueueMoves (q q' : List I64) : Prop := q' = q ∨ (∃ v, q = v :: q') ∨ ∃ v, q' = q ++ [v]

theorem getChannel_setQueue_same (c : ChannelId) (q : List I64) (s : State) :
    (getChannel (setQueue c q s) c).queue = q :=
  congrArg Channel.queue (getChannel_setChannel_same c _ s)

/-- Where one queue moves, every queue does. -/
theorem queueMoves_setQueue {s : State} {c : ChannelId} {q : List I64} (h : QueueMoves (getChannel s c).queue q)
    (d : ChannelId) : QueueMoves (getChannel s d).queue (getChannel (setQueue c q s) d).queue := by
  by_cases hd : d = c
  · subst hd
    rwa [getChannel_setQueue_same]
  · exact .inl (congrArg Channel.queue (getChannel_setChannel_ne _ s hd))

theorem getChannel_dropSender_queue (c d : ChannelId) (s : State) :
    (getChannel (dropSender c s) d).queue = (getChannel s d).queue := by
  by_cases h : d = c
  · subst h
    simp [dropSender, getChannel_setChannel_same]
  · exact congrArg Channel.queue (getChannel_setChannel_ne _ s h)

theorem getChannel_dropReceiver_queue (c d : ChannelId) (s : State) :
    (getChannel (dropReceiver c s) d).queue = (getChannel s d).queue := by
  by_cases h : d = c
  · subst h
    simp [dropReceiver, getChannel_setChannel_same]
  · exact congrArg Channel.queue (getChannel_setChannel_ne _ s h)

theorem effect_queueMoves {s t : State} {i : Instr} (h : Effect s i t) (c : ChannelId) :
    QueueMoves (getChannel s c).queue (getChannel t c).queue := by
  cases h with
  | fault | halt =>
    exact .inl ((congrArg Channel.queue (getChannel_endRun _ s c)).trans (releaseEnds_queue s.eng s c))
  | receive _ d v rest _ _ hq => exact queueMoves_setQueue (.inr (.inl ⟨v, hq⟩)) c
  | send _ d v => exact queueMoves_setQueue (.inr (.inr ⟨v, rfl⟩)) c
  | hold | store | jump | fallThrough | base => exact .inl rfl

theorem startSpawned_queue (e : EngineId) (x : Engine) (s : State) (c : ChannelId) :
    (getChannel (startSpawned e x s) c).queue = (getChannel s c).queue := by
  unfold startSpawned
  split
  · rw [getChannel_setEngine]
  · rw [getChannel_setEngine, releaseEnds_queue]
  · rw [getChannel_setEngine, releaseEnds_queue]

/-- Giving the turn to an engine changes no channel and no parameter. -/
theorem selectEngine_frame {e : EngineId} {s t : State} (h : selectEngine e s = some t) :
    t.cfg = s.cfg ∧ t.chans = s.chans := by
  unfold selectEngine at h
  split at h
  · cases h
    exact ⟨rfl, rfl⟩
  · split at h <;> cases h
    exact ⟨rfl, rfl⟩

theorem getChannel_of_chans {s t : State} (h : t.chans = s.chans) (c : ChannelId) : getChannel t c = getChannel s c := by
  simp only [getChannel, h]

theorem hostEffect_queueMoves {s t : State} {a : HostAction} (h : HostEffect s a t) {c : ChannelId} (hc : c < s.nextChan) :
    QueueMoves (getChannel s c).queue (getChannel t c).queue := by
  cases h with
  | answer => exact .inl rfl
  | load | firstLoad | attachInput | attachOutput | detachInput | detachOutput =>
    exact .inl (congrArg Channel.queue (getChannel_setEngine _ _ s c))
  | newChannel => exact .inl (congrArg Channel.queue (getChannel_createChannel_ne (Nat.ne_of_lt hc)))
  | push d v => exact queueMoves_setQueue (.inr (.inr ⟨v, rfl⟩)) c
  | pop d v rest _ hq => exact queueMoves_setQueue (.inr (.inl ⟨v, hq⟩)) c
  | dropSend d => exact .inl (getChannel_dropSender_queue d c s)
  | dropRecv d => exact .inl (getChannel_dropReceiver_queue d c s)
  | run e x u _ _ _ hu =>
    obtain ⟨-, hchans⟩ := selectEngine_frame hu
    exact .inl (congrArg Channel.queue (getChannel_of_chans hchans c))
  | spawn e x =>
    obtain ⟨hfirst, hc'⟩ := getChannel_freshEnd (h := x.inp) hc
    obtain ⟨hsecond, -⟩ := getChannel_freshEnd (h := x.outp) hc'
    exact .inl ((startSpawned_queue e _ _ c).trans (congrArg Channel.queue (hsecond.trans hfirst)))

/-- Settles O40: a step moves no queue, or is an engine's or the host's, each of which moves a queue as a channel may. -/
theorem queuesAreFifo : Obligations.QueuesAreFifo := by
  intro s t c hc h
  rcases step_cases h with ⟨r, n, rfl⟩ | ⟨e, r, n, u, i, hu, heffect, -⟩ | ⟨a, r, -, rfl⟩
  · exact .inl rfl
  · have hmoves := effect_queueMoves heffect c
    rwa [getChannel_of_chans (selectEngine_frame hu).2 c] at hmoves
  · exact hostEffect_queueMoves (hostEffect_hostAct a { s with agenda := r }) hc

/-! ### The parameters -/

@[simp] theorem freshEnd_cfg (h : Option ChannelId) (s : State) : (freshEnd h s).2.cfg = s.cfg := by
  unfold freshEnd; split <;> rfl

@[simp] theorem startSpawned_cfg (e : EngineId) (x : Engine) (s : State) : (startSpawned e x s).cfg = s.cfg := by
  unfold startSpawned; split <;> simp

theorem hostEffect_cfg {s t : State} {a : HostAction} (h : HostEffect s a t) : t.cfg = s.cfg := by
  cases h with
  | run e x u _ _ _ hu => exact (selectEngine_frame hu).1
  | answer | load | firstLoad | attachInput | attachOutput | detachInput | detachOutput | newChannel | push | pop
    | dropSend | dropRecv | spawn => simp

/-- Settles O41, by the three kinds of step. -/
theorem parametersNeverChange : Obligations.ParametersNeverChange := by
  intro s t h
  rcases step_cases h with ⟨r, n, rfl⟩ | ⟨e, r, n, u, i, hu, heffect, -⟩ | ⟨a, r, -, rfl⟩
  · rfl
  · obtain ⟨-, -, -, -, -, hcfg⟩ := effect_frame heffect
    exact hcfg.trans (selectEngine_frame hu).1
  · have hcfg := hostEffect_cfg (hostEffect_hostAct a { s with agenda := r })
    exact hcfg

/-! ### One engine over a step of the system -/

/-- What a step is to an engine: it is untouched, it had the turn, or the host acted. -/
theorem step_engine_cases {s t : State} {e : EngineId} {x : Engine} (hn : NamesCanonical s)
    (hx : findEngine s e = some x) (h : step s = .next t) :
    findEngine t e = some x ∨
      (∃ u r i, GivesTurn s u e x r ∧ Effect u i t ∧ findEngine t e = some t.eng) ∨
      ∃ a r, s.agenda = .host a :: r ∧ HostEffect { s with agenda := r } a t := by
  rcases step_cases h with ⟨r, n, rfl⟩ | ⟨g, r, n, u, i, hu, heffect, -⟩ | ⟨a, r, hagenda, rfl⟩
  · exact .inl hx
  · have hturn := givesTurn_of_selectEngine hn hu
    have hxu : findEngine u e = some x := (hturn.findEngine_eq e).trans hx
    by_cases he : e = u.self
    · subst he
      obtain rfl : u.eng = x := Option.some.inj ((findEngine_self u).symm.trans hxu)
      obtain ⟨hself, -⟩ := effect_frame heffect
      exact .inr (.inl ⟨u, r, i, hturn, heffect, hself ▸ findEngine_self t⟩)
    · exact .inl ((effect_findEngine heffect he).trans hxu)
  · exact .inr (.inr ⟨a, r, hagenda, hostEffect_hostAct a { s with agenda := r }⟩)

/-- Settles O38: an engine that steps only grows, and the host keeps the memory of an engine it does not load. -/
theorem onlyLoadShrinksTheExtent : Obligations.OnlyLoadShrinksTheExtent := by
  intro s t e x hn hx h
  rcases step_engine_cases hn hx h with hsame | ⟨u, r, i, hturn, heffect, hy⟩ | ⟨a, r, hagenda, hact⟩
  · exact ⟨x, hsame, .inl le_rfl⟩
  · exact ⟨t.eng, hy, .inl (hturn.eng_eq ▸ effect_extent heffect)⟩
  · rcases hostEffect_keepsEngine hact hn hx with ⟨y, hy, -, hmem, -⟩ | ⟨hload, y, hy⟩
    · exact ⟨y, hy, .inl (hmem ▸ le_rfl)⟩
    · rcases hload with ⟨image, rfl⟩ | ⟨text, rfl⟩
      · exact ⟨y, hy, .inr ⟨r, .inl ⟨image, hagenda⟩⟩⟩
      · exact ⟨y, hy, .inr ⟨r, .inr ⟨text, hagenda⟩⟩⟩

/-- Settles O56: an engine that ends had the turn, and the end of a spawned run drops its two ends. -/
theorem spawnedEngineDropsItsEnds : Obligations.SpawnedEngineDropsItsEnds := by
  intro s t e x y hn hx hrunning hspawned h hy hended
  rcases step_engine_cases hn hx h with hsame | ⟨u, r, i, hturn, heffect, hself⟩ | ⟨a, r, -, hact⟩
  · obtain rfl : x = y := Option.some.inj (hsame.symm.trans hy)
    exact absurd hrunning hended.ne_running
  · obtain rfl : t.eng = y := Option.some.inj (hself.symm.trans hy)
    obtain ⟨-, rfl, -, hchans, -⟩ := hturn
    obtain ⟨st, rfl, -⟩ := effect_not_running heffect hrunning hended.ne_running
    obtain ⟨-, -, hidle, -, -, -, -, -, -, -, -, -, hdrops⟩ := endsRun_endRun st u
    obtain ⟨hinp, houtp, halive⟩ := hdrops hspawned
    refine ⟨hidle, hinp, houtp, fun c => ?_⟩
    rw [← getChannel_of_chans hchans c]
    exact halive c
  · exact absurd (hostEffect_running hact hn hx hrunning hy) hended.ne_running

end Sys2Proof.Machine
end

section
/-! PROOF. The invariants of the system over every step: memories in canonical form, the discipline of the runs, and who holds
which end of a channel (10_state.md R25, R28, R29; 60_exceptions.md R105 to R108). -/

namespace Sys2Proof.Machine

/-! ### Memories (10_state.md R25) -/

theorem mem_allEngines_of_eng {s : State} {x y : Engine} (h : y ∈ allEngines { s with eng := x }) :
    y = x ∨ y ∈ allEngines s :=
  (List.mem_cons.1 h).imp id (List.mem_cons_of_mem _)

/-- After a host action every memory is one there was before or that of an image. -/
theorem hostEffect_mem {s t : State} {a : HostAction} {y : Engine} (h : HostEffect s a t) (hy : y ∈ allEngines t) :
    (∃ x ∈ allEngines s, y.mem = x.mem) ∨ ∃ image, y.mem = memLoad image := by
  cases h with
  | answer | newChannel | push | pop | dropSend | dropRecv => exact .inl ⟨y, hy, rfl⟩
  | load _ _ image | firstLoad _ _ image =>
    rcases mem_allEngines_setEngine hy with rfl | hy
    · exact .inr ⟨image, rfl⟩
    · exact .inl ⟨y, hy, rfl⟩
  | attachInput _ _ x hx | attachOutput _ _ x hx | detachInput _ x hx | detachOutput _ x hx =>
    rcases mem_allEngines_setEngine hy with rfl | hy
    · exact .inl ⟨x, mem_allEngines_of_findEngine hx, rfl⟩
    · exact .inl ⟨y, hy, rfl⟩
  | run _ _ u _ _ _ hu =>
    rcases mem_allEngines_of_eng hy with rfl | hy
    · exact .inl ⟨u.eng, mem_allEngines_selectEngine hu List.mem_cons_self, rfl⟩
    · exact .inl ⟨y, mem_allEngines_selectEngine hu hy, rfl⟩
  | spawn _ x _ hx =>
    rcases mem_allEngines_startSpawned hy with rfl | rfl | hy
    · exact .inl ⟨x, mem_allEngines_of_findEngine hx, rfl⟩
    · exact .inl ⟨x, mem_allEngines_of_findEngine hx, endedEngine_mem _ _⟩
    · rw [allEngines_freshEnd, allEngines_freshEnd] at hy
      exact .inl ⟨y, hy, rfl⟩

theorem effect_mem_wf {s t : State} {i : Instr} (h : Effect s i t) (hwf : s.eng.mem.wf) : t.eng.mem.wf := by
  rcases effect_mem h with hmem | ⟨a, v, hmem⟩
  · exact hmem ▸ hwf
  · exact hmem ▸ memWrite_wf a v hwf

/-- Settles O57: a step writes one cell of the engine that has the turn, or is the host's, which writes memory by a load. -/
theorem stepKeepsMemoriesCanonical : Obligations.StepKeepsMemoriesCanonical := by
  intro s t hwf h
  rcases step_cases h with ⟨r, n, rfl⟩ | ⟨e, r, n, u, i, hu, heffect, -⟩ | ⟨a, r, -, rfl⟩
  · exact hwf
  · have hwfu : MemoriesCanonical u := fun x hx => by
      have hold := mem_allEngines_selectEngine hu hx
      exact hwf x hold
    intro y hy
    rcases effect_mem_allEngines heffect hy with rfl | hy
    · exact effect_mem_wf heffect (hwfu u.eng List.mem_cons_self)
    · exact hwfu y hy
  · intro y hy
    rcases hostEffect_mem (hostEffect_hostAct a { s with agenda := r }) hy with ⟨x, hx, hmem⟩ | ⟨image, hmem⟩
    · exact hmem ▸ hwf x hx
    · exact hmem ▸ memLoad_wf image

/-! ### Names (60_exceptions.md R108) -/

theorem effect_names {s t : State} {i : Instr} (h : Effect s i t) (hn : NamesCanonical s) : NamesCanonical t := by
  obtain ⟨hself, hothers, -⟩ := effect_frame h
  simpa only [NamesCanonical, hself, hothers] using hn

theorem freshEnd_names {s : State} (h : Option ChannelId) (hn : NamesCanonical s) : NamesCanonical (freshEnd h s).2 := by
  unfold freshEnd
  split <;> exact hn

theorem releaseEnds_names {s : State} (x : Engine) (hn : NamesCanonical s) : NamesCanonical (releaseEnds x s) := by
  simpa only [NamesCanonical, releaseEnds_self, releaseEnds_others] using hn

theorem startSpawned_names {s : State} (e : EngineId) (x : Engine) (hn : NamesCanonical s) :
    NamesCanonical (startSpawned e x s) := by
  unfold startSpawned
  split
  · exact setEngine_names hn
  · exact setEngine_names (releaseEnds_names x hn)
  · exact setEngine_names (releaseEnds_names x hn)

theorem hostEffect_names {s t : State} {a : HostAction} (h : HostEffect s a t) (hn : NamesCanonical s) :
    NamesCanonical t := by
  cases h with
  | answer | newChannel | push | pop | dropSend | dropRecv => exact hn
  | load | firstLoad | attachInput | attachOutput | detachInput | detachOutput => exact setEngine_names (s := s) hn
  | run e x u _ _ _ hu =>
    obtain ⟨-, -, -, hnu, -⟩ := selectEngine_cases hn hu
    exact hnu
  | spawn e x => exact startSpawned_names e _ (freshEnd_names x.outp (freshEnd_names x.inp hn))

/-! ### Runs (60_exceptions.md R105 to R107) -/

/-- The discipline of runs, said of engines by name. -/
theorem runInv_iff {s : State} :
    RunInv s ↔ NamesCanonical s ∧ (∀ e x, findEngine s e = some x → x.run ≠ .idle → x.status = .running) ∧
      ∀ e f x y, findEngine s e = some x → findEngine s f = some y → x.run = .inline → y.run = .inline → e = f := by
  refine and_congr_right fun hn => and_congr_left fun _ => ?_
  constructor
  · exact fun h e x hx => h x (mem_allEngines_of_findEngine hx)
  · intro h x hx
    obtain ⟨e, he⟩ := (mem_allEngines_iff hn).1 hx
    exact h e x he

/-- A step of an engine ends its run, or leaves its status and its run. -/
theorem effect_run {s t : State} {i : Instr} (h : Effect s i t) :
    t.eng.run = .idle ∨ (t.eng.run = s.eng.run ∧ t.eng.status = s.eng.status) := by
  cases h with
  | fault | halt => exact .inl (by simp [raiseFault])
  | hold | store | receive | send | jump | fallThrough | base => exact .inr ⟨rfl, rfl⟩

/-- After a step of an engine, an engine inside a run was inside that run before, with the same status. -/
theorem effect_inRun {s t : State} {i : Instr} {e : EngineId} {y : Engine} (h : Effect s i t)
    (hy : findEngine t e = some y) (hr : y.run ≠ .idle) :
    ∃ x, findEngine s e = some x ∧ y.run = x.run ∧ y.status = x.status := by
  by_cases he : e = s.self
  · obtain ⟨hself, -⟩ := effect_frame h
    subst he
    rw [← hself, findEngine_self] at hy
    obtain rfl : t.eng = y := Option.some.inj hy
    exact ⟨s.eng, findEngine_self s, (effect_run h).resolve_left hr⟩
  · exact ⟨y, (effect_findEngine h he).symm.trans hy, rfl, rfl⟩

theorem findEngine_eng_ne {s : State} {e : EngineId} (x : Engine) (h : e ≠ s.self) :
    findEngine { s with eng := x } e = findEngine s e := by
  simp [findEngine, h]

/-- The host action `a` may have made the engine named `e` the engine `y`: what it was before was inside no run, `y` is inside
one only if it is Running, and inside an inline one only by `run`. -/
def MadeByHost (s : State) (a : HostAction) (e : EngineId) (y : Engine) : Prop :=
  (∀ x, findEngine s e = some x → x.run = .idle) ∧ (y.run = .idle ∨ y.status = .running) ∧ (y.run = .inline → a = .run e)

theorem madeByHost_of_idle {s : State} {a : HostAction} {e : EngineId} {x y : Engine} (hx : findEngine s e = some x)
    (hr : x.run = .idle) (hy : y.run = .idle ∨ y.status = .running) (hinline : y.run = .inline → a = .run e) :
    MadeByHost s a e y :=
  ⟨fun _ hz => Option.some.inj (hx.symm.trans hz) ▸ hr, hy, hinline⟩

theorem madeByHost_of_run_eq {s : State} {a : HostAction} {e : EngineId} {x y : Engine} (hx : findEngine s e = some x)
    (hr : x.run = .idle) (hy : y.run = x.run) : MadeByHost s a e y :=
  madeByHost_of_idle hx hr (.inl (hy.trans hr)) fun h => nomatch (hy.trans hr).symm.trans h

theorem madeByHost_setEngine {s : State} {a : HostAction} {e f : EngineId} {y z : Engine} (hz : MadeByHost s a f z)
    (hy : findEngine (setEngine f z s) e = some y) : findEngine s e = some y ∨ MadeByHost s a e y := by
  by_cases he : e = f
  · subst he
    rw [findEngine_setEngine_same] at hy
    obtain rfl : z = y := Option.some.inj hy
    exact .inr hz
  · exact .inl ((findEngine_setEngine_ne z s he).symm.trans hy)

/-- After a host action an engine is as it was, or is one that the action may have made. -/
theorem hostEffect_engine {s t : State} {a : HostAction} {e : EngineId} {y : Engine} (h : HostEffect s a t)
    (hn : NamesCanonical s) (hy : findEngine t e = some y) : findEngine s e = some y ∨ MadeByHost s a e y := by
  cases h with
  | answer | newChannel | push | pop | dropSend | dropRecv => exact .inl hy
  | firstLoad _ f image _ hx =>
    refine madeByHost_setEngine (s := s) ?_ hy
    exact ⟨by simp [hx], .inr rfl, nofun⟩
  | load _ f _ x _ hx hr | attachInput f _ x hx hr | attachOutput f _ x hx hr | detachInput f x hx hr
    | detachOutput f x hx hr =>
    refine madeByHost_setEngine (s := s) ?_ hy
    exact madeByHost_of_run_eq hx hr rfl
  | run f x u hx hr hs hu =>
    obtain ⟨rfl, heng, hfind, -⟩ := selectEngine_cases hn hu
    obtain rfl : x = u.eng := Option.some.inj (hx.symm.trans heng)
    by_cases he : e = u.self
    · subst he
      obtain rfl := Option.some.inj ((findEngine_self _).symm.trans hy)
      exact .inr (madeByHost_of_idle hx hr (.inr hs) fun _ => rfl)
    · exact .inl ((hfind e).symm.trans ((findEngine_eng_ne _ he).symm.trans hy))
  | spawn f x r hx hr =>
    rw [findEngine_reply, findEngine_startSpawned] at hy
    by_cases he : e = f
    · subst he
      rw [if_pos rfl] at hy
      obtain rfl := Option.some.inj hy
      refine .inr (madeByHost_of_idle hx hr ?_ ?_)
      · split
        · rename_i hs
          exact .inr hs
        · exact .inl (endedEngine_run _ _)
      · split
        · exact nofun
        · exact fun h => nomatch (endedEngine_run _ _).symm.trans h
    · rw [if_neg he, findEngine_freshEnd, findEngine_freshEnd] at hy
      exact .inl hy

theorem hostWaits_of_inline {s : State} {e : EngineId} {x : Engine} (hx : findEngine s e = some x)
    (hr : x.run = .inline) : hostWaits s = true :=
  List.any_eq_true.2 ⟨x, mem_allEngines_of_findEngine hx, by simp [hr]⟩

theorem runInv_of_effect {s t : State} {i : Instr} (h : Effect s i t) (hinv : RunInv s) : RunInv t := by
  obtain ⟨hn, hrunning, hone⟩ := runInv_iff.1 hinv
  refine runInv_iff.2 ⟨effect_names h hn, fun e y hy hr => ?_, fun e f y z hy hz hry hrz => ?_⟩
  · obtain ⟨x, hx, hrun, hstatus⟩ := effect_inRun h hy hr
    exact hstatus.trans (hrunning e x hx (hrun ▸ hr))
  · obtain ⟨x, hx, hrx, -⟩ := effect_inRun h hy (by simp [hry])
    obtain ⟨w, hw, hrw, -⟩ := effect_inRun h hz (by simp [hrz])
    exact hone e f x w hx hw (hrx.symm.trans hry) (hrw.symm.trans hrz)

theorem runInv_hostAct {s : State} (a : HostAction) (hinv : RunInv s) : RunInv (hostAct a s) := by
  have hact := hostEffect_hostAct a s
  obtain ⟨hn, hrunning, -⟩ := runInv_iff.1 hinv
  by_cases hwaits : hostWaits s = true
  · rw [hostAct_of_waits hwaits]
    exact hinv
  have hinline : ∀ e y, findEngine (hostAct a s) e = some y → y.run = .inline → a = .run e := fun e y hy hr => by
    rcases hostEffect_engine hact hn hy with hold | ⟨-, -, hrun⟩
    · exact absurd (hostWaits_of_inline hold hr) hwaits
    · exact hrun hr
  refine runInv_iff.2 ⟨hostEffect_names hact hn, fun e y hy hr => ?_, fun e f y z hy hz hry hrz => ?_⟩
  · rcases hostEffect_engine hact hn hy with hold | ⟨-, hmade, -⟩
    · exact hrunning e y hold hr
    · exact hmade.resolve_left hr
  · exact HostAction.run.inj ((hinline e y hy hry).symm.trans (hinline f z hz hrz))

theorem runInv_selectEngine {e : EngineId} {s u : State} (hu : selectEngine e s = some u) (hinv : RunInv s) : RunInv u := by
  obtain ⟨hn, hrest⟩ := runInv_iff.1 hinv
  obtain ⟨-, -, hfind, hnu, -⟩ := selectEngine_cases hn hu
  exact runInv_iff.2 ⟨hnu, by simpa only [hfind] using hrest⟩

/-- Settles O59: a step of an engine begins no run, and the host begins one only where it waits for none. -/
theorem stepKeepsRunDiscipline : Obligations.StepKeepsRunDiscipline := by
  intro s t hinv h
  rcases step_cases h with ⟨r, n, rfl⟩ | ⟨e, r, n, u, i, hu, heffect, -⟩ | ⟨a, r, -, rfl⟩
  · exact hinv
  · exact runInv_of_effect heffect (runInv_selectEngine hu hinv)
  · exact runInv_hostAct a (s := { s with agenda := r }) hinv

end Sys2Proof.Machine
end

section
/-! PROOF. Who holds which end of a channel, over every step (10_state.md R28, R29; 60_exceptions.md R105, R107). The two ends
of an engine are treated alike: `held` gives the end an engine holds on one side, and `alive` says whether that end of a
channel is alive. -/

namespace Sys2Proof.Machine

variable {held : Engine → Option ChannelId} {alive : Channel → Bool}

/-! ### The ends an engine may hold -/

/-- The engine named `e` may hold the end `h`: it is a live end of a created channel that no other engine holds. -/
def MayHoldEnd (held : Engine → Option ChannelId) (alive : Channel → Bool) (s : State) (e : EngineId)
    (h : Option ChannelId) : Prop :=
  ∀ c, h = some c → c < s.nextChan ∧ alive (getChannel s c) = true ∧
    ∀ f y, f ≠ e → findEngine s f = some y → held y ≠ some c

/-- Every engine may hold the end that it holds on this side. -/
def EndsOwned (held : Engine → Option ChannelId) (alive : Channel → Bool) (s : State) : Prop :=
  ∀ e x, findEngine s e = some x → MayHoldEnd held alive s e (held x)

/-- The engine named `e` may be `x`, as to the two ends that `x` holds. -/
def MayHold (s : State) (e : EngineId) (x : Engine) : Prop :=
  MayHoldEnd Engine.inp Channel.receiverAlive s e x.inp ∧ MayHoldEnd Engine.outp Channel.senderAlive s e x.outp

theorem mayHoldEnd_none {s : State} {e : EngineId} : MayHoldEnd held alive s e none := nofun

/-- The ownership of ends, said side by side of engines by name. -/
theorem ownershipInv_iff {s : State} :
    OwnershipInv s ↔ NamesCanonical s ∧ ChannelsCanonical s ∧ EndsOwned Engine.inp Channel.receiverAlive s ∧
      EndsOwned Engine.outp Channel.senderAlive s := by
  refine and_congr_right fun hn => and_congr_right fun _ => ?_
  constructor
  · rintro ⟨hlive, hexcl⟩
    refine ⟨fun e x hx c hc => ?_, fun e x hx c hc => ?_⟩
    · obtain ⟨hlt, halive⟩ := (hlive x (mem_allEngines_of_findEngine hx)).1 c hc
      exact ⟨hlt, halive, fun f y hf hy hyc => hf ((hexcl f e y x hy hx c).1 hyc hc)⟩
    · obtain ⟨hlt, halive⟩ := (hlive x (mem_allEngines_of_findEngine hx)).2 c hc
      exact ⟨hlt, halive, fun f y hf hy hyc => hf ((hexcl f e y x hy hx c).2 hyc hc)⟩
  · rintro ⟨hinp, houtp⟩
    refine ⟨fun x hx => ?_, fun e f x y hx hy c => ⟨fun hxc hyc => ?_, fun hxc hyc => ?_⟩⟩
    · obtain ⟨e, he⟩ := (mem_allEngines_iff hn).1 hx
      exact ⟨fun c hc => (hinp e x he c hc).imp id And.left, fun c hc => (houtp e x he c hc).imp id And.left⟩
    · obtain ⟨-, -, hfree⟩ := hinp f y hy c hyc
      exact by_contra fun hne => hfree e x hne hx hxc
    · obtain ⟨-, -, hfree⟩ := houtp f y hy c hyc
      exact by_contra fun hne => hfree e x hne hx hxc

theorem mayHold_of_findEngine {s : State} {e : EngineId} {x : Engine} (h : OwnershipInv s) (hx : findEngine s e = some x) :
    MayHold s e x := by
  obtain ⟨-, -, hinp, houtp⟩ := ownershipInv_iff.1 h
  exact ⟨hinp e x hx, houtp e x hx⟩

/-! ### One side under the operations on the state -/

theorem endsOwned_congr {s t : State} (hfind : ∀ f, findEngine t f = findEngine s f) (hchans : t.chans = s.chans)
    (hnext : t.nextChan = s.nextChan) (h : EndsOwned held alive s) : EndsOwned held alive t := by
  simpa only [EndsOwned, MayHoldEnd, hfind, getChannel_of_chans hchans, hnext] using h

theorem endsOwned_setEngine {s : State} {e : EngineId} {x : Engine} (h : EndsOwned held alive s)
    (hx : MayHoldEnd held alive s e (held x)) : EndsOwned held alive (setEngine e x s) := by
  intro f y hy c hc
  rw [setEngine_nextChan, getChannel_setEngine]
  by_cases hf : f = e
  · subst hf
    rw [findEngine_setEngine_same] at hy
    obtain rfl : x = y := Option.some.inj hy
    obtain ⟨hlt, halive, hfree⟩ := hx c hc
    exact ⟨hlt, halive, fun g z hg hz => hfree g z hg ((findEngine_setEngine_ne x s hg).symm.trans hz)⟩
  · rw [findEngine_setEngine_ne x s hf] at hy
    obtain ⟨hlt, halive, hfree⟩ := h f y hy c hc
    refine ⟨hlt, halive, fun g z hg hz hzc => ?_⟩
    by_cases hge : g = e
    · subst hge
      rw [findEngine_setEngine_same] at hz
      obtain rfl : x = z := Option.some.inj hz
      obtain ⟨-, -, hxfree⟩ := hx c hzc
      exact hxfree f y hf hy hc
    · exact hfree g z hg ((findEngine_setEngine_ne x s hge).symm.trans hz) hzc

/-- An end that the engine named `e` may hold is held by none once that engine is one that does not hold it. -/
theorem free_setEngine {s : State} {e : EngineId} {y : Engine} {h : Option ChannelId} {c : ChannelId}
    (hmay : MayHoldEnd held alive s e h) (hc : h = some c) (hy : held y ≠ some c) :
    c < (setEngine e y s).nextChan ∧ alive (getChannel (setEngine e y s) c) = true ∧
      ∀ f z, findEngine (setEngine e y s) f = some z → held z ≠ some c := by
  obtain ⟨hlt, halive, hfree⟩ := hmay c hc
  rw [setEngine_nextChan, getChannel_setEngine]
  refine ⟨hlt, halive, fun f z hz => ?_⟩
  by_cases hf : f = e
  · subst hf
    obtain rfl := Option.some.inj ((findEngine_setEngine_same f y s).symm.trans hz)
    exact hy
  · exact hfree f z hf ((findEngine_setEngine_ne y s hf).symm.trans hz)

/-- A channel may be set so long as an end that some engine holds stays alive. -/
theorem endsOwned_setChannel {s : State} {c : ChannelId} {ch : Channel} (h : EndsOwned held alive s)
    (hch : ∀ e x, findEngine s e = some x → held x = some c → alive ch = true) :
    EndsOwned held alive (setChannel c ch s) := by
  intro e x hx d hd
  obtain ⟨hlt, halive, hfree⟩ := h e x hx d hd
  refine ⟨hlt, ?_, hfree⟩
  by_cases hdc : d = c
  · subst hdc
    rw [getChannel_setChannel_same]
    exact hch e x hx hd
  · rwa [getChannel_setChannel_ne _ _ hdc]

theorem mayHoldEnd_createChannel {s : State} {e : EngineId} {h : Option ChannelId} (hh : MayHoldEnd held alive s e h) :
    MayHoldEnd held alive (createChannel s) e h := by
  intro c hc
  obtain ⟨hlt, halive, hfree⟩ := hh c hc
  exact ⟨Nat.lt_succ_of_lt hlt, by rwa [getChannel_createChannel_ne (Nat.ne_of_lt hlt)], hfree⟩

theorem endsOwned_createChannel {s : State} (h : EndsOwned held alive s) : EndsOwned held alive (createChannel s) :=
  fun e x hx => mayHoldEnd_createChannel (h e x hx)

/-- Any engine may hold an end of a channel just created. -/
theorem mayHoldEnd_created {s : State} (e : EngineId) (h : EndsOwned held alive s) (hnew : alive Channel.new = true) :
    MayHoldEnd held alive (createChannel s) e (some s.nextChan) := by
  rintro c ⟨⟩
  refine ⟨Nat.lt_succ_self _, by rwa [getChannel_createChannel_new], fun f y _ hy hyc => ?_⟩
  exact absurd (h f y hy _ hyc).1 (lt_irrefl _)

theorem mayHoldEnd_freshEnd {s : State} {e : EngineId} {h : Option ChannelId} (g : Option ChannelId)
    (hh : MayHoldEnd held alive s e h) : MayHoldEnd held alive (freshEnd g s).2 e h := by
  cases g with
  | some c => exact hh
  | none => exact mayHoldEnd_createChannel hh

/-- The end a side gets at a spawn, kept or fresh, is one its engine may hold. -/
theorem mayHoldEnd_freshEnd_self {s : State} {e : EngineId} {h : Option ChannelId} (hs : EndsOwned held alive s)
    (hnew : alive Channel.new = true) (hh : MayHoldEnd held alive s e h) :
    MayHoldEnd held alive (freshEnd h s).2 e (freshEnd h s).1 := by
  cases h with
  | some c => exact hh
  | none => exact mayHoldEnd_created e hs hnew

/-! ### The invariant under the operations on the state -/

theorem channelsCanonical_setChannel {s : State} {c : ChannelId} {ch : Channel} (h : ChannelsCanonical s)
    (hc : c < s.nextChan) : ChannelsCanonical (setChannel c ch s) := by
  refine ⟨sparseSet_canonical c ch h.1, fun p hp => ?_⟩
  rcases mem_sparseSet hp with rfl | hp
  · exact hc
  · exact h.2 p hp

theorem channelsCanonical_createChannel {s : State} (h : ChannelsCanonical s) : ChannelsCanonical (createChannel s) := by
  refine ⟨sparseSet_canonical s.nextChan Channel.new h.1, fun p hp => ?_⟩
  replace hp : p ∈ sparseSet Channel.new s.chans s.nextChan Channel.new := hp
  rcases mem_sparseSet hp with rfl | hp
  · exact Nat.lt_succ_self _
  · exact Nat.lt_succ_of_lt (h.2 p hp)

theorem ownership_congr {s t : State} (hn : NamesCanonical t) (hfind : ∀ f, findEngine t f = findEngine s f)
    (hchans : t.chans = s.chans) (hnext : t.nextChan = s.nextChan) (h : OwnershipInv s) : OwnershipInv t := by
  obtain ⟨-, hcanonical, hinp, houtp⟩ := ownershipInv_iff.1 h
  refine ownershipInv_iff.2 ⟨hn, ?_, endsOwned_congr hfind hchans hnext hinp, endsOwned_congr hfind hchans hnext houtp⟩
  simpa only [ChannelsCanonical, hchans, hnext] using hcanonical

theorem ownership_setEngine {s : State} {e : EngineId} {x : Engine} (h : OwnershipInv s) (hx : MayHold s e x) :
    OwnershipInv (setEngine e x s) := by
  obtain ⟨hn, hcanonical, hinp, houtp⟩ := ownershipInv_iff.1 h
  obtain ⟨hxinp, hxoutp⟩ := hx
  refine ownershipInv_iff.2 ⟨setEngine_names hn, ?_, endsOwned_setEngine hinp hxinp, endsOwned_setEngine houtp hxoutp⟩
  simpa only [ChannelsCanonical, setEngine_chans, setEngine_nextChan] using hcanonical

/-- The engine that has the turn may change in all but its ends. -/
theorem ownership_eng {s : State} {x : Engine} (h : OwnershipInv s) (hinp : x.inp = s.eng.inp)
    (houtp : x.outp = s.eng.outp) : OwnershipInv { s with eng := x } := by
  have hx : MayHold s s.self x := by
    have hself := mayHold_of_findEngine h (findEngine_self s)
    rwa [MayHold, ← hinp, ← houtp] at hself
  simpa [setEngine] using ownership_setEngine h hx

theorem ownership_setChannel {s : State} {c : ChannelId} {ch : Channel} (h : OwnershipInv s) (hc : c < s.nextChan)
    (hrecv : ∀ e x, findEngine s e = some x → x.inp = some c → ch.receiverAlive = true)
    (hsend : ∀ e x, findEngine s e = some x → x.outp = some c → ch.senderAlive = true) :
    OwnershipInv (setChannel c ch s) := by
  obtain ⟨hn, hcanonical, hinp, houtp⟩ := ownershipInv_iff.1 h
  exact ownershipInv_iff.2 ⟨hn, channelsCanonical_setChannel hcanonical hc, endsOwned_setChannel hinp hrecv,
    endsOwned_setChannel houtp hsend⟩

theorem receiverAlive_of_inp {s : State} {e : EngineId} {x : Engine} {c : ChannelId} (h : OwnershipInv s)
    (hx : findEngine s e = some x) (hc : x.inp = some c) : c < s.nextChan ∧ (getChannel s c).receiverAlive = true :=
  ((mayHold_of_findEngine h hx).1 c hc).imp id And.left

theorem senderAlive_of_outp {s : State} {e : EngineId} {x : Engine} {c : ChannelId} (h : OwnershipInv s)
    (hx : findEngine s e = some x) (hc : x.outp = some c) : c < s.nextChan ∧ (getChannel s c).senderAlive = true :=
  ((mayHold_of_findEngine h hx).2 c hc).imp id And.left

theorem ownership_setQueue {s : State} {c : ChannelId} {q : List I64} (h : OwnershipInv s) (hc : c < s.nextChan) :
    OwnershipInv (setQueue c q s) :=
  ownership_setChannel h hc (fun _ _ hx hxc => (receiverAlive_of_inp h hx hxc).2)
    fun _ _ hx hxc => (senderAlive_of_outp h hx hxc).2

theorem ownership_dropReceiver {s : State} {c : ChannelId} (h : OwnershipInv s) (hc : c < s.nextChan)
    (hfree : ∀ e x, findEngine s e = some x → x.inp ≠ some c) : OwnershipInv (dropReceiver c s) :=
  ownership_setChannel h hc (fun e x hx hxc => absurd hxc (hfree e x hx))
    fun _ _ hx hxc => (senderAlive_of_outp h hx hxc).2

theorem ownership_dropSender {s : State} {c : ChannelId} (h : OwnershipInv s) (hc : c < s.nextChan)
    (hfree : ∀ e x, findEngine s e = some x → x.outp ≠ some c) : OwnershipInv (dropSender c s) :=
  ownership_setChannel h hc (fun _ _ hx hxc => (receiverAlive_of_inp h hx hxc).2)
    fun e x hx hxc => absurd hxc (hfree e x hx)

theorem ownership_freshEnd {s : State} (g : Option ChannelId) (h : OwnershipInv s) : OwnershipInv (freshEnd g s).2 := by
  cases g with
  | some c => exact h
  | none =>
    obtain ⟨hn, hcanonical, hinp, houtp⟩ := ownershipInv_iff.1 h
    exact ownershipInv_iff.2 ⟨hn, channelsCanonical_createChannel hcanonical, endsOwned_createChannel hinp,
      endsOwned_createChannel houtp⟩

/-! ### The end of a run -/

/-- Ends of created channels that no engine holds may be dropped. -/
theorem ownership_releaseEnds {s : State} {x : Engine} (h : OwnershipInv s)
    (hinp : ∀ c, x.inp = some c → c < s.nextChan ∧ ∀ e y, findEngine s e = some y → y.inp ≠ some c)
    (houtp : ∀ c, x.outp = some c → c < s.nextChan ∧ ∀ e y, findEngine s e = some y → y.outp ≠ some c) :
    OwnershipInv (releaseEnds x s) := by
  unfold releaseEnds
  cases x.run with
  | idle => exact h
  | inline => exact h
  | spawned =>
    have hfirst : OwnershipInv (match x.inp with | some c => dropReceiver c s | none => s) := by
      cases hi : x.inp with
      | none => exact h
      | some c => exact ownership_dropReceiver h (hinp c hi).1 (hinp c hi).2
    cases ho : x.outp with
    | none => exact hfirst
    | some d =>
      obtain ⟨hlt, hfree⟩ := houtp d ho
      refine ownership_dropSender hfirst ?_ ?_
      · cases x.inp <;> exact hlt
      · cases x.inp <;> exact hfree

theorem setEngine_setChannel (e : EngineId) (y : Engine) (c : ChannelId) (ch : Channel) (s : State) :
    setEngine e y (setChannel c ch s) = setChannel c ch (setEngine e y s) := by
  by_cases h : e = s.self <;> simp [setEngine, setChannel, h]

/-- It is the same whether an engine is set before the ends are dropped or after. -/
theorem setEngine_releaseEnds (e : EngineId) (x y : Engine) (s : State) :
    setEngine e y (releaseEnds x s) = releaseEnds x (setEngine e y s) := by
  have recv : ∀ c s, setEngine e y (dropReceiver c s) = dropReceiver c (setEngine e y s) := by
    simp [dropReceiver, setEngine_setChannel, getChannel_setEngine]
  have send : ∀ c s, setEngine e y (dropSender c s) = dropSender c (setEngine e y s) := by
    simp [dropSender, setEngine_setChannel, getChannel_setEngine]
  unfold releaseEnds
  cases x.run <;> cases x.inp <;> cases x.outp <;> simp only [recv, send]

/-- An engine that ends leaves the ends it keeps or drops consistent. -/
theorem ownership_endedEngine {s : State} {e : EngineId} {x : Engine} (st : Status) (h : OwnershipInv s)
    (hx : MayHold s e x) : OwnershipInv (setEngine e (endedEngine st x) (releaseEnds x s)) := by
  cases hr : x.run with
  | idle | inline =>
    rw [releaseEnds_of_ne (by simp [hr])]
    refine ownership_setEngine h ?_
    simpa [MayHold, endedEngine, hr] using hx
  | spawned =>
    have hended : (endedEngine st x).inp = none ∧ (endedEngine st x).outp = none := by simp [endedEngine, hr]
    have hgone : MayHold s e (endedEngine st x) := by
      obtain ⟨hinp, houtp⟩ := hended
      rw [MayHold, hinp, houtp]
      exact ⟨mayHoldEnd_none, mayHoldEnd_none⟩
    obtain ⟨hinp, houtp⟩ := hx
    rw [setEngine_releaseEnds]
    refine ownership_releaseEnds (ownership_setEngine h hgone) (fun c hc => ?_) fun c hc => ?_
    · obtain ⟨hlt, -, hfree⟩ := free_setEngine (y := endedEngine st x) hinp hc (by simp [hended])
      exact ⟨hlt, hfree⟩
    · obtain ⟨hlt, -, hfree⟩ := free_setEngine (y := endedEngine st x) houtp hc (by simp [hended])
      exact ⟨hlt, hfree⟩

theorem ownership_endRun {s : State} (st : Status) (h : OwnershipInv s) : OwnershipInv (endRun st s) := by
  have hended := ownership_endedEngine st h (mayHold_of_findEngine h (findEngine_self s))
  have hset : setEngine s.self (endedEngine st s.eng) (releaseEnds s.eng s) =
      { releaseEnds s.eng s with eng := endedEngine st s.eng } := by simp [setEngine]
  rw [hset] at hended
  exact hended

/-! ### Steps -/

theorem ownership_effect {s t : State} {i : Instr} (h : Effect s i t) (hinv : OwnershipInv s) : OwnershipInv t := by
  cases h with
  | fault | halt => exact ownership_endRun _ hinv
  | hold => exact hinv
  | store | jump | fallThrough | base => exact ownership_eng (s := s) hinv rfl rfl
  | receive _ c v rest d hc =>
    have hqueue : OwnershipInv (setQueue c rest s) :=
      ownership_setQueue hinv (receiverAlive_of_inp hinv (findEngine_self s) hc).1
    exact ownership_eng (s := setQueue c rest s) hqueue rfl rfl
  | send _ c v hc =>
    have hqueue : OwnershipInv (setQueue c ((getChannel s c).queue ++ [v]) s) :=
      ownership_setQueue hinv (senderAlive_of_outp hinv (findEngine_self s) hc).1
    exact ownership_eng (s := setQueue c _ s) hqueue rfl rfl

theorem ownership_selectEngine {e : EngineId} {s u : State} (hu : selectEngine e s = some u) (h : OwnershipInv s) :
    OwnershipInv u := by
  obtain ⟨-, -, hfind, hnu, -, hchans, hnext, -⟩ := selectEngine_cases h.1 hu
  exact ownership_congr hnu hfind hchans hnext h

theorem ownership_startSpawned {s : State} {e : EngineId} {x : Engine} (h : OwnershipInv s) (hx : MayHold s e x) :
    OwnershipInv (startSpawned e x s) := by
  unfold startSpawned
  split
  · exact ownership_setEngine h hx
  · exact ownership_endedEngine _ h hx
  · exact ownership_endedEngine _ h hx

/-- The ends an engine has once it is spawned, kept or fresh, are ends it may hold (60_exceptions.md R107, D30). -/
theorem mayHold_spawned {s : State} {e : EngineId} {x y : Engine} (h : OwnershipInv s) (hx : findEngine s e = some x)
    (hinp : y.inp = (freshEnd x.inp s).1) (houtp : y.outp = (freshEnd x.outp (freshEnd x.inp s).2).1) :
    MayHold (freshEnd x.outp (freshEnd x.inp s).2).2 e y := by
  obtain ⟨-, -, hsinp, -⟩ := ownershipInv_iff.1 h
  obtain ⟨-, -, -, hfoutp⟩ := ownershipInv_iff.1 (ownership_freshEnd x.inp h)
  obtain ⟨hxinp, hxoutp⟩ := mayHold_of_findEngine h hx
  rw [MayHold, hinp, houtp]
  exact ⟨mayHoldEnd_freshEnd _ (mayHoldEnd_freshEnd_self hsinp rfl hxinp),
    mayHoldEnd_freshEnd_self hfoutp rfl (mayHoldEnd_freshEnd _ hxoutp)⟩

theorem ownership_hostEffect {s t : State} {a : HostAction} (h : HostEffect s a t) (hinv : OwnershipInv s) :
    OwnershipInv t := by
  have hmay : ∀ {e x}, findEngine s e = some x → MayHold s e x := mayHold_of_findEngine hinv
  cases h with
  | answer => exact hinv
  | load _ e image x _ hx =>
    obtain ⟨hinp, houtp⟩ := hmay hx
    exact ownership_setEngine hinv ⟨hinp, houtp⟩
  | firstLoad _ e image => exact ownership_setEngine hinv ⟨mayHoldEnd_none, mayHoldEnd_none⟩
  | attachInput e c x hx _ hh =>
    obtain ⟨hlt, halive, hfree⟩ := hostHoldsRecv_cases hh
    refine ownership_setEngine hinv ⟨?_, (hmay hx).2⟩
    rintro d ⟨⟩
    exact ⟨hlt, halive, fun f y _ => hfree f y⟩
  | attachOutput e c x hx _ hh =>
    obtain ⟨hlt, halive, hfree⟩ := hostHoldsSend_cases hh
    refine ownership_setEngine hinv ⟨(hmay hx).1, ?_⟩
    rintro d ⟨⟩
    exact ⟨hlt, halive, fun f y _ => hfree f y⟩
  | detachInput e x hx => exact ownership_setEngine hinv ⟨mayHoldEnd_none, (hmay hx).2⟩
  | detachOutput e x hx => exact ownership_setEngine hinv ⟨(hmay hx).1, mayHoldEnd_none⟩
  | newChannel => exact ownership_freshEnd none hinv
  | push c v hh => exact ownership_setQueue hinv (hostHoldsSend_cases hh).1
  | pop c v rest hh => exact ownership_setQueue hinv (hostHoldsRecv_cases hh).1
  | dropSend c hh =>
    obtain ⟨hlt, -, hfree⟩ := hostHoldsSend_cases hh
    exact ownership_dropSender hinv hlt hfree
  | dropRecv c hh =>
    obtain ⟨hlt, -, hfree⟩ := hostHoldsRecv_cases hh
    exact ownership_dropReceiver hinv hlt hfree
  | run e x u _ _ _ hu => exact ownership_eng (ownership_selectEngine hu hinv) rfl rfl
  | spawn e x r hx =>
    exact ownership_startSpawned (ownership_freshEnd _ (ownership_freshEnd _ hinv)) (mayHold_spawned hinv hx rfl rfl)

/-- Settles O58: the step of an engine and each host action keep every end with one live holder. -/
theorem stepKeepsOwnership : Obligations.StepKeepsOwnership := by
  intro s t hinv h
  rcases step_cases h with ⟨r, n, rfl⟩ | ⟨e, r, n, u, i, hu, heffect, -⟩ | ⟨a, r, -, rfl⟩
  · exact hinv
  · exact ownership_effect heffect (ownership_selectEngine hu hinv)
  · exact ownership_hostEffect (hostEffect_hostAct a { s with agenda := r }) hinv

/-! ### After reset -/

theorem findEngine_reset {e : EngineId} {x : Engine} (h : findEngine State.reset e = some x) : e = 0 ∧ x = Engine.reset := by
  by_cases he : e = 0
  · subst he
    exact ⟨rfl, (Option.some.inj h).symm⟩
  · simp [findEngine, State.reset, he] at h

theorem namesCanonical_reset : NamesCanonical State.reset := by
  simp [NamesCanonical, State.reset]

theorem channelsCanonical_reset : ChannelsCanonical State.reset := by
  simp [ChannelsCanonical, SparseCanonical, State.reset]

theorem endsOwned_reset (hheld : held Engine.reset = none) : EndsOwned held alive State.reset := by
  intro e x hx
  rw [(findEngine_reset hx).2, hheld]
  exact mayHoldEnd_none

/-- Settles O60: the one engine has an empty memory, holds no end and is inside no run. -/
theorem resetMeetsTheInvariants : Obligations.ResetMeetsTheInvariants := by
  refine ⟨fun x hx => ?_, ownershipInv_iff.2 ⟨namesCanonical_reset, channelsCanonical_reset, endsOwned_reset rfl,
    endsOwned_reset rfl⟩, runInv_iff.2 ⟨namesCanonical_reset, fun e x hx hr => ?_, fun e f x y hx hy _ _ => ?_⟩⟩
  · obtain ⟨e, he⟩ := (mem_allEngines_iff namesCanonical_reset).1 hx
    rw [(findEngine_reset he).2]
    exact memEmpty_wf
  · exact absurd ((findEngine_reset hx).2 ▸ rfl) hr
  · exact (findEngine_reset hx).1.trans (findEngine_reset hy).1.symm

/-- Settles O42, by evaluation: with the extent 0 every cell reads as 0, and no channel is listed. -/
theorem resetIsALoadOfTheEmptyImage : Obligations.ResetIsALoadOfTheEmptyImage :=
  ⟨rfl, rfl, rfl, rfl, fun _ => rfl, rfl, rfl, rfl, fun _ => rfl⟩

end Sys2Proof.Machine
end

section
/-! PROOF. The host actions one by one: loads, pushes and pops, attaching and detaching, creating a channel, run, spawn and the
readouts, and when an action is refused (60_exceptions.md R105 to R107, 70_reset_and_hazards.md R116). -/

namespace Sys2Proof.Machine

/-! ### Rules over all host actions -/

theorem hostEffect_of_step {s t : State} {a : HostAction} {r : List Move} (hagenda : s.agenda = .host a :: r)
    (h : step s = .next t) : HostEffect { s with agenda := r } a t := by
  rw [step_of_host hagenda] at h
  cases h
  exact hostEffect_hostAct a _

/-- Settles O47: the engine still exists, and what the host may have made it was inside no run. -/
theorem hostLeavesEnginesInsideARun : Obligations.HostLeavesEnginesInsideARun := by
  intro s t a r e x hn hagenda h hx hr
  have hact := hostEffect_of_step hagenda h
  obtain ⟨y, hy⟩ : ∃ y, findEngine t e = some y := by
    rcases hostEffect_keepsEngine hact hn hx with ⟨y, hy, -⟩ | ⟨-, y, hy⟩ <;> exact ⟨y, hy⟩
  rcases hostEffect_engine hact hn hy with hold | ⟨hidle, -⟩
  · obtain rfl : x = y := Option.some.inj (hx.symm.trans hold)
    exact hy
  · exact absurd (hidle x hx) hr

/-- Settles O48: the host keeps the registers and the memory of every engine that it does not load. -/
theorem hostWritesEnginesOnlyByLoad : Obligations.HostWritesEnginesOnlyByLoad := by
  intro s t a r e x hn hagenda h hx himage htext
  rcases hostEffect_keepsEngine (hostEffect_of_step hagenda h) hn hx with ⟨y, hy, -, hsame⟩ | ⟨hload, -⟩
  · exact ⟨y, hy, hsame⟩
  · rcases hload with ⟨image, ha⟩ | ⟨text, ha⟩
    · exact absurd ha (himage image)
    · exact absurd ha (htext text)

/-! ### The first load -/

theorem hostLoad_of_none {s : State} {e : EngineId} (hx : findEngine s e = none) (image : List I64) :
    hostLoad e image s = reply .done (setEngine e (loadedEngine image Engine.reset) s) := by
  simp [hostLoad, hx]

/-- Settles O44: either load sets a new engine of that name, loaded, and changes no other. -/
theorem firstLoadCreatesTheEngine : Obligations.FirstLoadCreatesTheEngine := by
  intro s e image r hmove hwaits hx
  replace hwaits : hostWaits { s with agenda := r } = false := hwaits
  replace hx : findEngine { s with agenda := r } e = none := hx
  have hstep : step s =
      .next (reply .done (setEngine e (loadedEngine image Engine.reset) { s with agenda := r })) := by
    rw [← hostLoad_of_none hx]
    rcases hmove with hload | ⟨text, htext, hload⟩
    · rw [step_of_host hload, hostAct_load hwaits]
    · rw [step_of_host hload, hostAct_loadText hwaits, hostLoadText_of_idle (by simp [hx]), parseThenLoad,
        parseText_of_programText htext]
  exact ⟨_, loadedEngine image Engine.reset, hstep, findEngine_setEngine_same _ _ _, memRead_memLoad image, rfl, rfl, rfl,
    rfl, rfl, rfl, rfl, setEngine_chans _ _ _, fun f hf => findEngine_setEngine_ne _ _ hf⟩

/-! ### Push, pop and the drops -/

theorem hostAct_push {s : State} {c : ChannelId} {v : I64} (hwaits : hostWaits s = false)
    (hsend : hostHoldsSend s c = true) (hrecv : (getChannel s c).receiverAlive = true) :
    hostAct (.push c v) s = reply .done (setQueue c ((getChannel s c).queue ++ [v]) s) := by
  simp [hostAct, hwaits, hostPush, hsend, hrecv]

theorem hostAct_pop {s : State} {c : ChannelId} {v : I64} {rest : List I64} (hwaits : hostWaits s = false)
    (hrecv : hostHoldsRecv s c = true) (hq : (getChannel s c).queue = v :: rest) :
    hostAct (.pop c) s = reply (.value v) (setQueue c rest s) := by
  simp [hostAct, hwaits, hostPop, hrecv, hq]

theorem hostAct_dropSend {s : State} {c : ChannelId} (hwaits : hostWaits s = false) (hsend : hostHoldsSend s c = true) :
    hostAct (.dropSend c) s = reply .done (dropSender c s) := by
  simp [hostAct, hwaits, hostDropSend, hsend]

theorem hostAct_dropRecv {s : State} {c : ChannelId} (hwaits : hostWaits s = false) (hrecv : hostHoldsRecv s c = true) :
    hostAct (.dropRecv c) s = reply .done (dropReceiver c s) := by
  simp [hostAct, hwaits, hostDropRecv, hrecv]

theorem onlyChannelChanges_setChannel (s : State) (r : List Move) (c : ChannelId) (ch : Channel) (rep : Reply) :
    OnlyChannelChanges s (reply rep (setChannel c ch { s with agenda := r })) c ch rep :=
  ⟨rfl, rfl, rfl, rfl, rfl, rfl, rfl, getChannel_setChannel_same c ch { s with agenda := r },
    fun _ hd => getChannel_setChannel_ne ch { s with agenda := r } hd⟩

/-- A host action whose effect is known is the step, with its move taken off the agenda. -/
theorem step_of_hostAct {s t : State} {a : HostAction} {r : List Move} (hagenda : s.agenda = .host a :: r)
    (h : hostAct a { s with agenda := r } = t) : step s = .next t :=
  h ▸ step_of_host hagenda

/-- Settles O49: each of the four sets the one channel. -/
theorem hostActsOnTheEndsItHolds : Obligations.HostActsOnTheEndsItHolds := by
  intro s c r hwaits
  replace hwaits : hostWaits { s with agenda := r } = false := hwaits
  refine ⟨fun v hagenda hsend hrecv => ?_, fun v rest hagenda hrecv hq => ?_, fun hagenda hsend => ?_,
    fun hagenda hrecv => ?_⟩
  · exact ⟨_, step_of_hostAct hagenda (hostAct_push hwaits hsend hrecv), rfl, onlyChannelChanges_setChannel s r c _ _⟩
  · exact ⟨_, step_of_hostAct hagenda (hostAct_pop hwaits hrecv hq), rfl, onlyChannelChanges_setChannel s r c _ _⟩
  · exact ⟨_, step_of_hostAct hagenda (hostAct_dropSend hwaits hsend), rfl, onlyChannelChanges_setChannel s r c _ _⟩
  · exact ⟨_, step_of_hostAct hagenda (hostAct_dropRecv hwaits hrecv), rfl, onlyChannelChanges_setChannel s r c _ _⟩

theorem step_of_own_turn {s u : State} {r : List Move} (hagenda : s.agenda = .turn s.self :: r)
    (h : engineTurn { s with agenda := r } = .next u) : step s = .next u := by
  have hself : selectEngine s.self { s with agenda := r } = some { s with agenda := r } := by simp [selectEngine]
  rw [step_of_turn hagenda]
  exact scheduledTurn_of_next hself h

/-- Settles O26: the push changes the channel alone, and the turn that follows is an Input whose queue has a head. -/
theorem pushReleasesAHeldInput : Obligations.PushReleasesAHeldInput := by
  intro s out c v d r hwf hagenda hstatus hrun hfetch hd hc hq hrecv hsend hwaits
  obtain ⟨hpush, -⟩ := hostActsOnTheEndsItHolds s c (.turn s.self :: r) hwaits
  obtain ⟨t, hstep, htagenda, hcfg, hself, heng, -, -, -, -, hchan, -⟩ := hpush v hagenda hsend hrecv
  have hqueue : (getChannel { t with agenda := r } c).queue = v :: [] := by
    have hnew : (getChannel t c).queue = [] ++ [v] := hq ▸ congrArg Channel.queue hchan
    exact hnew
  rw [← heng] at hstatus hrun hfetch hd hc hwf ⊢
  rw [← hcfg] at hd
  have hcan : CanStep t.eng := ⟨hstatus, by simp [hrun]⟩
  have hexec : exec (.input out) { t with agenda := r } = .next (advance 2 (storeCell d v (setQueue c [] _))) :=
    execInput_of_head (s := { t with agenda := r }) hd hc hqueue
  have hturn := (engineTurn_of_fetch (s := { t with agenda := r }) hcan hfetch).trans hexec
  exact ⟨t, _, hstep, rfl, step_of_own_turn (hself.symm ▸ htagenda) hturn, storedAt_memWrite hwf d v, rfl,
    getChannel_setQueue_same c [] { t with agenda := r }, rfl⟩

/-! ### Attaching and detaching -/

theorem hostHoldsRecv_iff {s : State} {c : ChannelId} :
    hostHoldsRecv s c = true ↔
      c < s.nextChan ∧ (getChannel s c).receiverAlive = true ∧ ∀ x ∈ allEngines s, x.inp ≠ some c := by
  simp [hostHoldsRecv, and_assoc]

theorem hostHoldsSend_iff {s : State} {c : ChannelId} :
    hostHoldsSend s c = true ↔
      c < s.nextChan ∧ (getChannel s c).senderAlive = true ∧ ∀ x ∈ allEngines s, x.outp ≠ some c := by
  simp [hostHoldsSend, and_assoc]

/-- An inbound end that its engine gives up goes to the host. -/
theorem hostHoldsRecv_setEngine {s : State} {e : EngineId} {x y : Engine} {d : ChannelId} (hinv : OwnershipInv s)
    (hx : findEngine s e = some x) (hd : x.inp = some d) (hy : y.inp ≠ some d) :
    hostHoldsRecv (setEngine e y s) d = true := by
  obtain ⟨hinp, -⟩ := mayHold_of_findEngine hinv hx
  obtain ⟨hlt, halive, hfree⟩ := free_setEngine hinp hd hy
  refine hostHoldsRecv_iff.2 ⟨hlt, halive, fun z hz => ?_⟩
  obtain ⟨f, hf⟩ := (mem_allEngines_iff (setEngine_names hinv.1)).1 hz
  exact hfree f z hf

/-- An outbound end that its engine gives up goes to the host. -/
theorem hostHoldsSend_setEngine {s : State} {e : EngineId} {x y : Engine} {d : ChannelId} (hinv : OwnershipInv s)
    (hx : findEngine s e = some x) (hd : x.outp = some d) (hy : y.outp ≠ some d) :
    hostHoldsSend (setEngine e y s) d = true := by
  obtain ⟨-, houtp⟩ := mayHold_of_findEngine hinv hx
  obtain ⟨hlt, halive, hfree⟩ := free_setEngine houtp hd hy
  refine hostHoldsSend_iff.2 ⟨hlt, halive, fun z hz => ?_⟩
  obtain ⟨f, hf⟩ := (mem_allEngines_iff (setEngine_names hinv.1)).1 hz
  exact hfree f z hf

theorem hostHoldsRecv_eq_false_of_inp {s : State} {e : EngineId} {x : Engine} {c : ChannelId}
    (hx : findEngine s e = some x) (hc : x.inp = some c) : hostHoldsRecv s c = false := by
  refine Bool.eq_false_iff.2 fun h => ?_
  obtain ⟨-, -, hfree⟩ := hostHoldsRecv_cases h
  exact hfree e x hx hc

theorem hostHoldsSend_eq_false_of_outp {s : State} {e : EngineId} {x : Engine} {c : ChannelId}
    (hx : findEngine s e = some x) (hc : x.outp = some c) : hostHoldsSend s c = false := by
  refine Bool.eq_false_iff.2 fun h => ?_
  obtain ⟨-, -, hfree⟩ := hostHoldsSend_cases h
  exact hfree e x hx hc

section Idle

variable {s : State} {e : EngineId} {x : Engine} (hwaits : hostWaits s = false)
  (hx : findEngine s e = some x) (hidle : x.run = .idle)
include hwaits hx hidle

theorem hostAct_attachInput {c : ChannelId} (hrecv : hostHoldsRecv s c = true) :
    hostAct (.attachInput e c) s = reply .done (setEngine e { x with inp := some c } s) := by
  simp [hostAct, hwaits, hostAttachInput, hrecv, onIdleEngine_of_idle hx hidle]

theorem hostAct_attachOutput {c : ChannelId} (hsend : hostHoldsSend s c = true) :
    hostAct (.attachOutput e c) s = reply .done (setEngine e { x with outp := some c } s) := by
  simp [hostAct, hwaits, hostAttachOutput, hsend, onIdleEngine_of_idle hx hidle]

theorem hostAct_detachInput : hostAct (.detachInput e) s = reply .done (setEngine e { x with inp := none } s) := by
  simp [hostAct, hwaits, hostDetachInput, onIdleEngine_of_idle hx hidle]

theorem hostAct_detachOutput : hostAct (.detachOutput e) s = reply .done (setEngine e { x with outp := none } s) := by
  simp [hostAct, hwaits, hostDetachOutput, onIdleEngine_of_idle hx hidle]

theorem hostAct_run_of_running {u : State} (hs : x.status = .running) (hu : selectEngine e s = some u) :
    hostAct (.run e) s = { u with eng := { u.eng with run := .inline } } := by
  simp [hostAct, hwaits, hostRun, onIdleEngine_of_idle hx hidle, hs, hu]

theorem hostAct_run_of_ended (hs : x.status.Ended) : hostAct (.run e) s = reply (.ran e (runError x.status)) s := by
  rcases hs with hs | ⟨f, hs⟩ <;> simp [hostAct, hwaits, hostRun, onIdleEngine_of_idle hx hidle, hs]

theorem hostAct_readMemory : hostAct (.readMemory e) s = reply (.memory (memList x.mem)) s := by
  simp [hostAct, hwaits, hostReadMemory, onIdleEngine_of_idle hx hidle]

theorem hostAct_readStatus : hostAct (.readStatus e) s = reply (.status x.status) s := by
  simp [hostAct, hwaits, hostReadStatus, onIdleEngine_of_idle hx hidle]

/-- A spawn of a Running engine outside any run connects its two sides and starts it (60_exceptions.md R107). -/
theorem hostAct_spawn_of_running (hs : x.status = .running) :
    hostAct (.spawn e) s =
      reply (.spawned (returnedEnd x.inp (freshEnd x.inp s).1)
          (returnedEnd x.outp (freshEnd x.outp (freshEnd x.inp s).2).1))
        (setEngine e { x with
          inp := (freshEnd x.inp s).1
          outp := (freshEnd x.outp (freshEnd x.inp s).2).1
          run := .spawned } (freshEnd x.outp (freshEnd x.inp s).2).2) := by
  simp [hostAct, hwaits, hostSpawn, onIdleEngine_of_idle hx hidle, startSpawned, hs]

end Idle

/-- Settles O50: the engine is set with the one endpoint changed, and the end it gives up has no other holder. -/
theorem attachMovesTheEndpoint : Obligations.AttachMovesTheEndpoint := by
  intro s e x r hinv hwaits hx hidle
  replace hinv : OwnershipInv { s with agenda := r } := hinv
  replace hwaits : hostWaits { s with agenda := r } = false := hwaits
  replace hx : findEngine { s with agenda := r } e = some x := hx
  have hset (y : Engine) := findEngine_setEngine_same e y { s with agenda := r }
  have hchans (y : Engine) := setEngine_chans e y { s with agenda := r }
  have hother (y : Engine) : ∀ f, f ≠ e → findEngine (setEngine e y { s with agenda := r }) f = findEngine s f :=
    fun f hf => findEngine_setEngine_ne y _ hf
  refine ⟨fun c hagenda hrecv => ?_, fun c hagenda hsend => ?_, fun hagenda => ?_, fun hagenda => ?_⟩
  · obtain ⟨-, -, hfree⟩ := hostHoldsRecv_cases hrecv
    have hne : ∀ d, x.inp = some d → some c ≠ some d := fun d hd hcd => hfree e x hx (hd.trans hcd.symm)
    exact ⟨_, step_of_hostAct hagenda (hostAct_attachInput hwaits hx hidle hrecv), hset _, hchans _, hother _,
      hostHoldsRecv_eq_false_of_inp (hset _) rfl, fun d hd => hostHoldsRecv_setEngine hinv hx hd (hne d hd)⟩
  · obtain ⟨-, -, hfree⟩ := hostHoldsSend_cases hsend
    have hne : ∀ d, x.outp = some d → some c ≠ some d := fun d hd hcd => hfree e x hx (hd.trans hcd.symm)
    exact ⟨_, step_of_hostAct hagenda (hostAct_attachOutput hwaits hx hidle hsend), hset _, hchans _, hother _,
      hostHoldsSend_eq_false_of_outp (hset _) rfl, fun d hd => hostHoldsSend_setEngine hinv hx hd (hne d hd)⟩
  · exact ⟨_, step_of_hostAct hagenda (hostAct_detachInput hwaits hx hidle), hset _, hchans _, hother _,
      fun d hd => hostHoldsRecv_setEngine hinv hx hd nofun⟩
  · exact ⟨_, step_of_hostAct hagenda (hostAct_detachOutput hwaits hx hidle), hset _, hchans _, hother _,
      fun d hd => hostHoldsSend_setEngine hinv hx hd nofun⟩

/-! ### Creating a channel -/

theorem hostAct_newChannel {s : State} (hwaits : hostWaits s = false) :
    hostAct .newChannel s = reply (.channel s.nextChan) (createChannel s) := by
  simp [hostAct, hwaits, hostNewChannel]

/-- Settles O51: the name is the next free one, which no engine can hold an end of. -/
theorem createdChannelIsHeldByTheHost : Obligations.CreatedChannelIsHeldByTheHost := by
  rintro s r ⟨-, -, hlive, -⟩ hagenda hwaits
  replace hwaits : hostWaits { s with agenda := r } = false := hwaits
  have hnew := getChannel_createChannel_new { s with agenda := r }
  have hfree : ∀ x ∈ allEngines s, x.inp ≠ some s.nextChan ∧ x.outp ≠ some s.nextChan := fun x hx =>
    ⟨fun h => lt_irrefl _ ((hlive x hx).1 _ h).1, fun h => lt_irrefl _ ((hlive x hx).2 _ h).1⟩
  refine ⟨_, s.nextChan, step_of_hostAct hagenda (hostAct_newChannel hwaits), rfl, hnew, ?_, ?_, le_rfl, ?_, ?_, hfree,
    fun d hd => getChannel_createChannel_ne hd, fun _ => rfl⟩
  · exact hostHoldsSend_iff.2 ⟨Nat.lt_succ_self _, congrArg Channel.senderAlive hnew, fun x hx => (hfree x hx).2⟩
  · exact hostHoldsRecv_iff.2 ⟨Nat.lt_succ_self _, congrArg Channel.receiverAlive hnew, fun x hx => (hfree x hx).1⟩
  · exact Bool.eq_false_iff.2 fun h => lt_irrefl _ (hostHoldsSend_cases h).1
  · exact Bool.eq_false_iff.2 fun h => lt_irrefl _ (hostHoldsRecv_cases h).1

/-! ### Run and the readouts -/

/-- Settles O53: a Running engine is selected and put inside an inline run, and an ended one is only answered for. -/
theorem runEntersTheRunOrReturnsAtOnce : Obligations.RunEntersTheRunOrReturnsAtOnce := by
  intro s e x r hn hagenda hwaits hx hidle
  replace hwaits : hostWaits { s with agenda := r } = false := hwaits
  replace hx : findEngine { s with agenda := r } e = some x := hx
  refine ⟨fun hs => ?_, fun hs => ?_, fun f hs => ?_⟩
  · obtain ⟨u, hu⟩ := selectEngine_of_findEngine hx
    obtain ⟨rfl, heng, hfind, -, hcfg, hchans, hnext, hragenda, -, hreplies⟩ :=
      selectEngine_cases (s := { s with agenda := r }) hn hu
    obtain rfl : x = u.eng := Option.some.inj (hx.symm.trans heng)
    exact ⟨_, step_of_hostAct hagenda (hostAct_run_of_running hwaits hx hidle hs hu), rfl, rfl, hragenda, hchans, hnext,
      hcfg, hreplies, hostWaits_of_inline (findEngine_self _) rfl,
      fun f hf => (findEngine_eng_ne _ hf).trans (hfind f)⟩
  · have hrun := hostAct_run_of_ended hwaits hx hidle (.inl hs)
    rw [hs] at hrun
    exact step_of_hostAct hagenda hrun
  · have hrun := hostAct_run_of_ended hwaits hx hidle (.inr ⟨f, hs⟩)
    rw [hs] at hrun
    exact step_of_hostAct hagenda hrun

/-- Settles O54: the readout lists what each cell below the extent reads as. -/
theorem readoutsReturnCellsAndStatus : Obligations.ReadoutsReturnCellsAndStatus := by
  intro s e x r hwaits hx hidle
  replace hwaits : hostWaits { s with agenda := r } = false := hwaits
  replace hx : findEngine { s with agenda := r } e = some x := hx
  refine ⟨fun hagenda => ⟨memList x.mem, step_of_hostAct hagenda (hostAct_readMemory hwaits hx hidle), ?_, fun a ha => ?_⟩,
    fun hagenda => step_of_hostAct hagenda (hostAct_readStatus hwaits hx hidle)⟩
  · simp [memList]
  · simp [memList, ha]

/-! ### Spawn -/

theorem freshEnd_of_some {h : Option ChannelId} {c : ChannelId} (hc : h = some c) (s : State) :
    (freshEnd h s).1 = some c := by
  subst hc; rfl

/-- The fresh channel of a side without an endpoint. -/
theorem freshEnd_of_none {h : Option ChannelId} (hnone : h = none) (s : State) :
    (freshEnd h s).1 = some s.nextChan ∧ s.nextChan < (freshEnd h s).2.nextChan ∧
      getChannel (freshEnd h s).2 s.nextChan = Channel.new := by
  subst hnone
  exact ⟨rfl, Nat.lt_succ_self _, getChannel_createChannel_new s⟩

theorem nextChan_le_freshEnd (h : Option ChannelId) (s : State) : s.nextChan ≤ (freshEnd h s).2.nextChan := by
  unfold freshEnd
  split
  · exact le_rfl
  · exact Nat.le_succ _

/-- A side gets no end of a channel created before, but the one it held. -/
theorem freshEnd_ne {h : Option ChannelId} {s : State} {c : ChannelId} (hc : c < s.nextChan) (hh : h ≠ some c) :
    (freshEnd h s).1 ≠ some c := by
  unfold freshEnd
  split
  · exact hh
  · simpa using Nat.ne_of_gt hc

@[simp] theorem freshEnd_agenda (h : Option ChannelId) (s : State) : (freshEnd h s).2.agenda = s.agenda := by
  unfold freshEnd; split <;> rfl

@[simp] theorem freshEnd_replies (h : Option ChannelId) (s : State) : (freshEnd h s).2.replies = s.replies := by
  unfold freshEnd; split <;> rfl

theorem returnedEnd_eq (h k : Option ChannelId) : returnedEnd h k = if h = none then k else none := by
  cases h <;> rfl

/-- Settles O55: each side keeps its end or gets the fresh one, the inbound side first, and the engine is set to run. -/
theorem spawnConnectsTheMissingSides : Obligations.SpawnConnectsTheMissingSides := by
  intro s e x r hlive hagenda hwaits hx hidle hs
  have hout : ∀ c, x.outp = some c → c < s.nextChan := fun c hc =>
    ((hlive x (mem_allEngines_of_findEngine hx)).2 c hc).1
  replace hwaits : hostWaits { s with agenda := r } = false := hwaits
  replace hx : findEngine { s with agenda := r } e = some x := hx
  have hspawn := hostAct_spawn_of_running hwaits hx hidle hs
  refine ⟨_, _, step_of_hostAct hagenda hspawn, findEngine_setEngine_same _ _ _, rfl, hs, ⟨rfl, rfl, rfl⟩,
    fun f hf => ?_, fun d hd => ?_, by simp, by simp, fun c hc => freshEnd_of_some hc _,
    fun c hc => freshEnd_of_some hc _, fun hnone => ?_, fun hnone => ?_, by simp [returnedEnd_eq]⟩
  · rw [findEngine_reply, findEngine_setEngine_ne _ _ hf, findEngine_freshEnd, findEngine_freshEnd]
    rfl
  · obtain ⟨hfirst, hd'⟩ := getChannel_freshEnd (h := x.inp) (s := { s with agenda := r }) hd
    obtain ⟨hsecond, -⟩ := getChannel_freshEnd (h := x.outp) hd'
    exact (getChannel_setEngine _ _ _ d).trans (hsecond.trans hfirst)
  · obtain ⟨hend, hlt, hnew⟩ := freshEnd_of_none hnone { s with agenda := r }
    obtain ⟨hkept, hlt'⟩ := getChannel_freshEnd (h := x.outp) hlt
    refine ⟨s.nextChan, le_rfl, by simpa using hlt', hend, ?_, freshEnd_ne hlt fun h => lt_irrefl _ (hout _ h)⟩
    exact (getChannel_setEngine _ _ _ _).trans (hkept.trans hnew)
  · obtain ⟨hend, hlt, hnew⟩ := freshEnd_of_none hnone (freshEnd x.inp { s with agenda := r }).2
    exact ⟨_, nextChan_le_freshEnd x.inp { s with agenda := r }, by simpa using hlt, hend,
      (getChannel_setEngine _ _ _ _).trans hnew⟩

/-! ### Refusals -/

theorem onIdleEngine_refused {s : State} {e : EngineId} (h : ∀ x, findEngine s e = some x → x.run ≠ .idle)
    (f : Engine → State) : onIdleEngine e f s = reply .refused s := by
  unfold onIdleEngine
  split
  · rfl
  · rename_i x hx
    split
    · rename_i hidle
      exact absurd hidle (h x hx)
    · rfl
    · rfl

/-- A host action that lacks the channel end it needs is refused. -/
theorem hostAct_of_lacksChannel {s : State} {a : HostAction} (h : a.LacksChannel s) : hostAct a s = reply .refused s := by
  unfold hostAct
  split
  · rfl
  cases a with
  | push c v => rcases h with h | h <;> simp [hostPush, h]
  | pop c => rcases h with h | h <;> simp [hostPop, h]
  | dropSend c => exact if_neg (Bool.eq_false_iff.1 h)
  | dropRecv c => exact if_neg (Bool.eq_false_iff.1 h)
  | attachInput e c => exact if_neg (Bool.eq_false_iff.1 h)
  | attachOutput e c => exact if_neg (Bool.eq_false_iff.1 h)
  | load | loadText | detachInput | detachOutput | newChannel | run | spawn | readMemory | readStatus => exact h.elim

/-- A host action on an engine that is inside a run, or on a name that no engine has unless it is a load, is refused. -/
theorem hostAct_of_not_idle {s : State} {a : HostAction} {e : EngineId} (hneeds : a.needsIdle = some e)
    (h : ∀ x, findEngine s e = some x → x.run ≠ .idle) (hload : a.Loads e → findEngine s e ≠ none) :
    hostAct a s = reply .refused s := by
  have refused := onIdleEngine_refused h
  unfold hostAct
  split
  · rfl
  cases a with
  | newChannel | push | pop | dropSend | dropRecv => cases hneeds
  | load f image =>
    cases hneeds
    obtain ⟨x, hx⟩ := Option.ne_none_iff_exists'.1 (hload (.inl ⟨image, rfl⟩))
    simp only [hostLoad, hx, refused]
  | loadText f text =>
    cases hneeds
    obtain ⟨x, hx⟩ := Option.ne_none_iff_exists'.1 (hload (.inr ⟨text, rfl⟩))
    simp only [hostLoadText, hx, refused]
  | attachInput f c | attachOutput f c =>
    cases hneeds
    simp only [hostAttachInput, hostAttachOutput, refused, ite_self]
  | detachInput f | detachOutput f | run f | spawn f | readMemory f | readStatus f =>
    cases hneeds
    exact refused _

/-- Settles O52: whichever precondition fails, the action answers `refused` and nothing else. -/
theorem refusedActionsChangeNothing : Obligations.RefusedActionsChangeNothing := by
  intro s a r hagenda h
  refine step_of_hostAct (t := reply .refused { s with agenda := r }) hagenda ?_
  rcases h with hwaits | hlacks | ⟨e, x, hneeds, hx, hr⟩ | ⟨e, hneeds, hx, himage, htext⟩
  · exact hostAct_of_waits (s := { s with agenda := r }) hwaits a
  · exact hostAct_of_lacksChannel hlacks
  · replace hx : findEngine { s with agenda := r } e = some x := hx
    refine hostAct_of_not_idle hneeds (fun y hy => ?_) fun _ => by simp [hx]
    rwa [← Option.some.inj (hx.symm.trans hy)]
  · replace hx : findEngine { s with agenda := r } e = none := hx
    refine hostAct_of_not_idle hneeds (by simp [hx]) ?_
    rintro (⟨image, ha⟩ | ⟨text, ha⟩)
    · exact absurd ha (himage image)
    · exact absurd ha (htext text)

end Sys2Proof.Machine
end
